-- ==== Sys2Proof/Word.lean ====
section
/-!
DEFINITION. The widths of spec/00_scope.md rules R9 and R13: interface words, bytes, node weights.
All values are unsigned and bit 0 is the least significant bit (R13).
-/

namespace Sys2Proof

/-- An interface register or a buffer address: `REG_BITS` = `ADDR_BITS` = `COUNT_BITS` = 32 (R9). -/
abbrev Word := BitVec 32

/-- One byte of buffer memory, or a symbol of the Huffman alphabet: `SYMBOL_BITS` = 8 (R9, R18). -/
abbrev Byte := BitVec 8

/-- A tree-node weight: `WEIGHT_BITS` = 40 (R9, R165). -/
abbrev Weight := BitVec 40

/-- `NSYM`, the number of symbols (R9). -/
abbrev numSymbols : Nat := 256

/-- `MAX_NODES` = 2 × 256 − 1, the number of entries of the node array (R9, R37). -/
abbrev maxNodes : Nat := 511

/-- `MAX_CODE_LEN`, the width of the BITS field of a code entry (R9, R40). -/
abbrev maxCodeLen : Nat := 255

end Sys2Proof
end

