-- ==== Sys2Proof/Config.lean ====
section
/-!
DEFINITION. What an implementation fixes (the four parameters of spec/93_implementation_defined.md
P1 to P4) and the free values (its U1, U2, U3 and U6). A free value is a constant with no body, so
nothing can be proved of what it is: a claim that reads one holds for every value.
-/

namespace Sys2Proof

/-- The open parameters, which the machine holds in its state as plain data, so that a statement
about every state holds for every value of them (R10, R11, R70; 92_eei_decisions.md D4, D31).
`memBytes` is `MEM_BYTES`: as a 32-bit number it is at most 2^32 − 1, the upper bound of R10; the
lower bound is `Params.wf`. No rule of the block reads `regBase` and `bufBase` (R70). -/
structure Params where
  memBytes : Word
  hasFreqCount : Bool
  regBase : Nat
  bufBase : Nat
  deriving DecidableEq, Repr

/-- The lower bound of R10: 1 ≤ `MEM_BYTES`. -/
abbrev Params.wf (p : Params) : Prop := p.memBytes ≠ 0

/-- The values spec/95_test_vectors.md assumes: `MEM_BYTES` = 65536, `HAS_FREQ_COUNT` = true. The
placement of the window and the memory is no rule's concern (DESIGN CHOICE, log entry 1). -/
def Params.standard : Params :=
  { memBytes := 65536, hasFreqCount := true, regBase := 0, bufBase := 0 }

/-- RESULT after the fault that took draw `k` (R265, U1). -/
opaque Config.freeResult : Nat → Word

/-- The byte at an address that belongs to draw `k`: memory after reset (R66, U6) and the
destination window of a faulted ENCODE or DECODE (R266, U2). -/
opaque Config.freeByte : Nat → Nat → Byte

/-- The count of a symbol after the FREQ_LOAD format fault that took draw `k` (R133, U3). -/
opaque Config.freeCount : Nat → Byte → Word

end Sys2Proof
end

