-- ==== Sys2Proof/Syntax.lean ====
section
/-!
DEFINITION. The commands of the block: one constructor per row of spec/opcode_table.json
(spec/30_encoding.md rule R94). The only operand inside a command word is SYM (R92).
-/

namespace Sys2Proof

/-- A command. SYM is carried by FREQ_READ and CODE_READ alone (R90, R93). -/
inductive Instr where
  /-- FREQ_CLEAR (R120): the empty table. -/
  | freqClear
  /-- FREQ_COUNT (R124): count a buffer; test and simulation builds only. -/
  | freqCount
  /-- FREQ_LOAD (R132): parse a serialized table. -/
  | freqLoad
  /-- FREQ_STORE (R140): serialize the table. -/
  | freqStore
  /-- FREQ_READ (R145): read one count. -/
  | freqRead (sym : Byte)
  /-- BUILD_TREE (R160): build the Huffman tree. -/
  | buildTree
  /-- GEN_CODES (R172): derive the code table. -/
  | genCodes
  /-- CODE_READ (R178): read one code-table entry. -/
  | codeRead (sym : Byte)
  /-- ENCODE (R200): pack the codes of a buffer into a payload. -/
  | encode
  /-- DECODE (R209): unpack a payload and walk the tree. -/
  | decode
  /-- CLEAR_STATUS (R250): acknowledge a fault. -/
  | clearStatus
  deriving DecidableEq, Repr

end Sys2Proof
end

