-- ==== Sys2Proof/WellFormed.lean ====
section
/-!
DEFINITION. Which commands an implementation has. A SYM operand of `Instr` is a byte, so every value
of it is legal (R145, R178); the one check left is that FREQ_COUNT exists (R11, R98).
-/

namespace Sys2Proof

/-- The command exists in a build with these parameters: FREQ_COUNT only where `HAS_FREQ_COUNT` is
true (R98), every other command always. -/
def Instr.wellFormed (p : Params) : Instr → Bool
  | .freqCount => p.hasFreqCount
  | .freqClear | .freqLoad | .freqStore | .freqRead _ | .buildTree | .genCodes | .codeRead _
  | .encode | .decode | .clearStatus => true

end Sys2Proof
end

