-- ==== Sys2Proof/Decode.lean ====
section
/-!
DEFINITION. The decoder, total on every command word and rejecting by name (spec/30_encoding.md
rules R90, R94 to R98), and after it the encoder, from the same table.
-/

namespace Sys2Proof

/-- Why a word is no command. All four raise the one fault BAD_COMMAND (R95, R96, R98). -/
inductive DecodeError where
  /-- The OP field is not in the table of R94. -/
  | reservedOpcode
  /-- RSV, bits 31 to 16, is not 0. -/
  | reservedField
  /-- SYM is not 0 in a command that takes no symbol. -/
  | unexpectedSymbol
  /-- FREQ_COUNT in a build without it (R98). -/
  | freqCountAbsent
  deriving DecidableEq, Repr

/-- OP, bits 7 to 0 (R90). -/
def opField (w : Word) : Byte := w.extractLsb' 0 8

/-- SYM, bits 15 to 8 (R90). -/
def symField (w : Word) : Byte := w.extractLsb' 8 8

/-- RSV, bits 31 to 16 (R90). -/
def rsvField (w : Word) : BitVec 16 := w.extractLsb' 16 16

/-- The opcode map of R94; none for the reserved opcodes of R96. -/
def instrOfOpcode (op sym : Byte) : Option Instr :=
  match op with
  | 0x01 => some .freqClear
  | 0x02 => some .freqCount
  | 0x03 => some .freqLoad
  | 0x04 => some .freqStore
  | 0x05 => some (.freqRead sym)
  | 0x10 => some .buildTree
  | 0x11 => some .genCodes
  | 0x12 => some (.codeRead sym)
  | 0x20 => some .encode
  | 0x21 => some .decode
  | 0x30 => some .clearStatus
  | _ => none

/-- FREQ_READ and CODE_READ use SYM; every other command requires it to be 0 (R90). -/
def Instr.takesSymbol : Instr → Bool
  | .freqRead _ | .codeRead _ => true
  | .freqClear | .freqCount | .freqLoad | .freqStore | .buildTree | .genCodes
  | .encode | .decode | .clearStatus => false

/-- The decoding of a command word after the ERR test, its checks in the order of R95. -/
def decodeWord (p : Params) (w : Word) : Except DecodeError Instr :=
  match instrOfOpcode (opField w) (symField w) with
  | none => .error .reservedOpcode
  | some i =>
    if rsvField w ≠ 0 then .error .reservedField
    else if !i.takesSymbol && symField w != 0 then .error .unexpectedSymbol
    else if !i.wellFormed p then .error .freqCountAbsent
    else .ok i

/-- The opcode of a command (R94). -/
def Instr.opcode : Instr → Byte
  | .freqClear => 0x01
  | .freqCount => 0x02
  | .freqLoad => 0x03
  | .freqStore => 0x04
  | .freqRead _ => 0x05
  | .buildTree => 0x10
  | .genCodes => 0x11
  | .codeRead _ => 0x12
  | .encode => 0x20
  | .decode => 0x21
  | .clearStatus => 0x30

/-- The SYM field of a command's word: its operand, or 0 (R90). -/
def Instr.symbol : Instr → Byte
  | .freqRead s | .codeRead s => s
  | .freqClear | .freqCount | .freqLoad | .freqStore | .buildTree | .genCodes
  | .encode | .decode | .clearStatus => 0

/-- The command word of a command: RSV = 0, then SYM, then OP (R90, R94). -/
def encodeWord (i : Instr) : Word := (0#16) ++ i.symbol ++ i.opcode

/-- The low `nbits` bits of `w`, the bits above them 0, when they fit one command word (R91: there is
one command length, 32 bits). -/
def tableWord (nbits w : Nat) : Option Word :=
  if w % 2 ^ nbits < 2 ^ 32 then some (BitVec.ofNat 32 (w % 2 ^ nbits)) else none

/-- What the decoder reads from a row of spec/opcode_table.json, in a build that has FREQ_COUNT. A
command word is one register write, so no byte order applies to it (R32, R64). -/
def decodeTableWord (nbits w : Nat) : Option Instr :=
  match tableWord nbits w with
  | none => none
  | some v => (decodeWord Params.standard v).toOption

end Sys2Proof
end

