-- ==== Sys2Proof/Machine/State.lean ====
section
/-!
DEFINITION. The state of the block and of its host, as plain data (spec/10_state.md, spec/20_memory.md,
spec/30_encoding.md R110), the reasons a step can stop, and the state after reset (R44, R300).
-/

namespace Sys2Proof.Machine

/-- The fault codes STATUS.ERR can hold besides 0 (R260). A fault of the spec ends one command and the
block goes on: it is a next state, never a stop of the machine. -/
inductive ErrCode where
  | badCommand | notReady | memRange | overlap
  | fmtFreqLength | fmtFreqZero | fmtFreqOrder
  | fmtNoTree | fmtTruncated | fmtTrailer | fmtOffLeaf | fmtMidTraversal
  | encUnknownSymbol
  deriving DecidableEq, Repr

/-- STATUS.TREE_STATE: what the node array holds (R30). -/
inductive TreeState where
  | invalid | empty | single | multi
  deriving DecidableEq, Repr

/-- An index into the node array, `NODE_INDEX_BITS` = 9 bits wide (R9); the array has no entry 511. -/
abbrev NodeIndex := Fin maxNodes

/-- An entry of the node array (R37). The constructor is IS_LEAF. A leaf has no LEFT and RIGHT and an
internal node no SYM: those fields "hold no meaning and are never read" (R37, U8). -/
inductive Node where
  | leaf (sym : Byte) (weight : Weight) (disc : Byte)
  | internal (weight : Weight) (disc : Byte) (left right : NodeIndex)
  deriving DecidableEq, Repr

/-- The Huffman tree: the array NODE, NODE_COUNT (0 to 511) and ROOT (R37, R38). -/
structure Tree where
  nodes : Vector Node maxNodes
  nodeCount : Fin (maxNodes + 1)
  root : NodeIndex
  deriving DecidableEq, Repr

/-- An entry of the code table: PRESENT, LEN and BITS (R40). -/
structure CodeEntry where
  present : Bool
  len : BitVec 8
  bits : BitVec maxCodeLen
  deriving DecidableEq, Repr

/-- FREQ (R34). -/
abbrev FreqTable := Vector Word numSymbols

/-- CODE (R40). -/
abbrev CodeTable := Vector CodeEntry numSymbols

/-- The buffer memory (R60). `cells` lists the bytes that were written, addresses strictly rising. An
unlisted byte is unspecified (R66, R266): it is the byte of the draw that the last window at or below
its address names. A window `(a, k)` says that from address `a` up, to the next window, unlisted bytes
belong to draw `k`; windows are strictly rising too. -/
structure Memory where
  cells : List Host.Cell
  windows : List (Nat × Nat)
  deriving DecidableEq, Repr

/-- The words of the register window (R20): there are no other register accesses (R32, X6). -/
inductive Reg where
  | cmd | src | len | dst | result | status | reserved18 | reserved1C
  deriving DecidableEq, Repr

/-- What the host and the platform can do to the block (R12, R110, R300): the actions of the
host-program language, and reset. -/
inductive HostAction where
  /-- `MEMW a, b0 b1 …`: write bytes into buffer memory. -/
  | memw (a : Word) (bytes : List Byte)
  /-- `MEMR a, n`: read bytes of buffer memory. -/
  | memr (a : Word) (n : Nat)
  /-- `WR R, v`: write a register; of CMD, it issues a command (R21). -/
  | wr (r : Reg) (v : Word)
  /-- `RD R`: read a register. -/
  | rd (r : Reg)
  /-- The reset input (R300). -/
  | reset
  deriving DecidableEq, Repr

/-- What a host read returned. -/
inductive Observation where
  | reg (r : Reg) (v : Word)
  | mem (a : Word) (bytes : List Byte)
  deriving DecidableEq, Repr

/-- The whole state: the block's (R44), and around it the host program still to run (R23, R110), what
the host has read, and the fault history R264 asks a model to keep. CMD keeps no value (R21), so it has
no field; STATUS is assembled from its fields (`State.status`). -/
structure State where
  /-- The open parameters; no step changes them. -/
  params : Params
  /-- SRC, LEN, DST, RESULT (R20, R22, R25). -/
  src : Word
  len : Word
  dst : Word
  result : Word
  /-- STATUS.ERR: none is code 0, no fault (R26, R27). -/
  err : Option ErrCode
  /-- STATUS.TREE_STATE (R30). -/
  treeState : TreeState
  /-- STATUS.CODES_VALID (R31). -/
  codesValid : Bool
  /-- STATUS.BUSY (R29). -/
  busy : Bool
  /-- FREQ[0..255] (R34). -/
  freq : FreqTable
  /-- NODE, NODE_COUNT, ROOT (R37, R38). -/
  tree : Tree
  /-- CODE[0..255] (R40). -/
  codes : CodeTable
  /-- The buffer memory (R60). -/
  mem : Memory
  /-- Every fault raised, oldest first; nothing clears it (R264). -/
  faults : List ErrCode
  /-- The model's own: how many draws of unspecified values were taken (log entry 4). -/
  draws : Nat
  /-- The host's: its actions still to come, the next one first (R23, R110). -/
  program : List HostAction
  /-- The host's: what its reads returned, oldest first (R110). -/
  seen : List Observation
  deriving DecidableEq, Repr

/-- Reasons the machine stops. The spec's own faults are not among them (see `ErrCode`). -/
inductive Fault where
  /-- Raised by GEN_CODES and DECODE when NODE and ROOT do not hold the tree TREE_STATE says: the walk
  meets a leaf where R213 has an internal node, or the traversal does not end within NODE_COUNT's bound.
  The spec gives no such state an effect and no run from reset reaches one. SAFE. -/
  | brokenTree
  deriving DecidableEq, Repr

/-- Reasons a step has no meaning. -/
inductive Refusal where
  /-- Raised by an arm of `exec` whose command has no meaning yet. SAFE. -/
  | notModelled (mnemonic : String)
  /-- Raised by a host access to buffer memory at an address ≥ `MEM_BYTES`: "refuse: the host has no
  such move" (93_implementation_defined.md X8). SAFE. -/
  | hostOutsideMemory
  deriving DecidableEq, Repr

/-- The entry that NODE holds after reset, where the spec says unspecified (R38, U4): DESIGN CHOICE, log
entry 5, never read. -/
def Node.zero : Node := .leaf 0 0 0

/-- An entry of an absent symbol (R40), and what CODE holds after reset, where the spec says unspecified
(R41, U5): DESIGN CHOICE, log entry 5, never read. -/
def CodeEntry.absent : CodeEntry := { present := false, len := 0, bits := 0 }

/-- NODE, NODE_COUNT and ROOT after reset (R44). -/
def Tree.zero : Tree :=
  { nodes := Vector.replicate maxNodes .zero, nodeCount := 0, root := 0 }

/-- The block after a reset that takes draw `k` for its buffer memory (R44, R66, R300). -/
def State.resetWith (p : Params) (k : Nat) : State where
  params := p
  src := 0
  len := 0
  dst := 0
  result := 0
  err := none
  treeState := .invalid
  codesValid := false
  busy := false
  freq := Vector.replicate numSymbols 0
  tree := .zero
  codes := Vector.replicate numSymbols .absent
  mem := { cells := [], windows := [(0, k)] }
  faults := []
  draws := k + 1
  program := []
  seen := []

/-- The machine right after power-on, with the parameters of spec/95_test_vectors.md (log entry 1) and no
host program. -/
def State.reset : State := State.resetWith Params.standard 0

end Sys2Proof.Machine
end

