-- ==== Sys2Proof/Machine/Ops.lean ====
section
/-!
DEFINITION. The shared operations: buffer memory and its checks (spec/20_memory.md), bits and bytes
(R14, R64, R65), completing a command, taking a fault and acknowledging one (spec/60_exceptions.md
R264 to R269), and reset (R300).
-/

namespace Sys2Proof.Machine

/-! ## Bits and bytes -/

/-- `bits8(b)` = `[b[7], b[6], …, b[0]]` (R14). -/
def bits8 (b : Byte) : List Bool :=
  [b.getLsbD 7, b.getLsbD 6, b.getLsbD 5, b.getLsbD 4, b.getLsbD 3, b.getLsbD 2, b.getLsbD 1, b.getLsbD 0]

/-- The byte whose bit 7 is the first bit of the sequence; missing bits are the zero padding (R201, R204). -/
def byteOfBits (bits : List Bool) : Byte :=
  BitVec.ofNat 8 ((List.range 8).foldl (fun acc k => 2 * acc + (bits.getD k false).toNat) 0)

/-- The first `groups` 8-bit groups of a bit sequence, most significant bit first (R65, R201). -/
def packGroups : Nat → List Bool → List Byte
  | 0, _ => []
  | g + 1, bits => byteOfBits (bits.take 8) :: packGroups g (bits.drop 8)

/-- `ceil(L / 8)` (R178, R201). -/
def groupsFor (length : Nat) : Nat := (length + 7) / 8

/-- `be32(n)`: four bytes, the most significant first (R14, R64). -/
def be32 (n : Word) : List Byte :=
  [n.extractLsb' 24 8, n.extractLsb' 16 8, n.extractLsb' 8 8, n.extractLsb' 0 8]

/-- The 32-bit number of four big-endian bytes: `b1 << 24 | b2 << 16 | b3 << 8 | b4` (R64, R132). -/
def ofBe32 (b1 b2 b3 b4 : Byte) : Word := b1 ++ b2 ++ b3 ++ b4

/-- The 256 symbols in ascending order. -/
def allSymbols : List Byte := (List.range numSymbols).map (BitVec.ofNat 8)

theorem allSymbols_length : allSymbols.length = numSymbols := by simp [allSymbols]

/-- The table that holds `f s` at each symbol `s`. -/
def tabulate {α : Type} (f : Byte → α) : Vector α numSymbols :=
  ⟨(allSymbols.map f).toArray, by simp [allSymbols_length]⟩

/-- The entry of symbol `s`: `FREQ[s]`, `CODE[s]`. -/
def entry {α : Type} (t : Vector α numSymbols) (s : Byte) : α := t[s.toNat]'s.isLt

/-- The table with the entry of symbol `s` replaced: `CODE[s] <- e`. -/
def setEntry {α : Type} (t : Vector α numSymbols) (s : Byte) (e : α) : Vector α numSymbols :=
  t.set s.toNat e s.isLt

/-! ## Buffer memory -/

/-- The draw an unlisted byte at `a` belongs to: that of the last window at or below it. -/
def Memory.drawAt (m : Memory) (a : Nat) : Nat :=
  m.windows.foldl (fun k w => if w.1 ≤ a then w.2 else k) 0

/-- The byte that was written at `a`, if one was. -/
def Memory.lookup (m : Memory) (a : Nat) : Option Byte :=
  (m.cells.find? (fun c => c.1 == a)).map Prod.snd

/-- `M[a]`: what an unlisted address reads as is the free value of its draw (R66, U6). -/
def Memory.read (m : Memory) (a : Nat) : Byte :=
  match m.lookup a with
  | some b => b
  | none => Config.freeByte (m.drawAt a) a

/-- `MemRead(addr, n)` (R62). -/
def Memory.readBytes (m : Memory) (a n : Nat) : List Byte :=
  (List.range n).map (fun i => m.read (a + i))

/-- The cells of a byte string placed at `a`, `a + 1`, …. -/
def cellsAt : Nat → List Byte → List Host.Cell
  | _, [] => []
  | a, b :: bs => (a, b) :: cellsAt (a + 1) bs

/-- `MemWrite(addr, n, v)` with n = len(v) (R62): exactly the bytes from `a` up are replaced (R77). -/
def Memory.writeBytes (m : Memory) (a : Nat) (bs : List Byte) : Memory :=
  { m with
    cells := m.cells.filter (fun c => c.1 < a) ++ cellsAt a bs
      ++ m.cells.filter (fun c => a + bs.length ≤ c.1) }

/-- Memory of `size` bytes after the destination window `[a, size)` became unspecified with draw `k`
(R266, U2); bytes below `a` keep their values. -/
def Memory.scramble (m : Memory) (size a k : Nat) : Memory :=
  if a < size then
    { cells := m.cells.filter (fun c => c.1 < a)
      windows := m.windows.filter (fun w => w.1 < a) ++ [(a, k)] }
  else m

/-- The canonical form: cells and windows strictly rising by address. -/
def Memory.wf (m : Memory) : Bool :=
  decide (m.cells.Pairwise (fun c d => c.1 < d.1)) && decide (m.windows.Pairwise (fun c d => c.1 < d.1))

/-- `MEM_BYTES` as a number (R10, R60). -/
def State.memBytes (s : State) : Nat := s.params.memBytes.toNat

/-- `InRange(addr, n)` on unbounded numbers (R63). -/
def inRange (s : State) (a n : Nat) : Bool := a + n ≤ s.memBytes

/-- `Overlap(s, n, d, m)` (R72). -/
def overlaps (a n d m : Nat) : Bool := decide (0 < n) && decide (0 < m) && decide (a < d + m) && decide (d < a + n)

/-! ## Ending a command -/

/-- A command without a fault ends: RESULT is written and BUSY returns to 0 (R25, R29). -/
def State.complete (s : State) (r : Word) : State :=
  { s with result := r, busy := false }

/-- Taking a fault (R264): ERR gets the code, BUSY returns to 0, RESULT becomes unspecified (R265), and
the history records it. This is all that a fault changes where R266 and R267 name nothing more. -/
def raise (c : ErrCode) (s : State) : State :=
  { s with
    err := some c
    busy := false
    result := Config.freeResult s.draws
    faults := s.faults ++ [c]
    draws := s.draws + 1 }

/-- A fault of ENCODE or DECODE after its source check: the destination window becomes unspecified too
(R266). -/
def raiseWindow (c : ErrCode) (s : State) : State :=
  { raise c s with mem := s.mem.scramble s.memBytes s.dst.toNat s.draws }

/-- A format fault of FREQ_LOAD: every FREQ entry becomes unspecified too (R133, R267). -/
def raiseTable (c : ErrCode) (s : State) : State :=
  { raise c s with freq := tabulate (Config.freeCount s.draws) }

/-- The return from a fault: ERR <- 0 and nothing is restored (R250, R269). -/
def State.acknowledge (s : State) : State :=
  { s with err := none, busy := false }

/-- The reset input (R300): the block's state as R44 gives it, with a fresh draw for its memory. The
parameters, the host's program and reads, and the fault history are no part of what reset clears
(log entry 6). -/
def State.afterReset (s : State) : State :=
  { State.resetWith s.params s.draws with
    faults := s.faults, program := s.program, seen := s.seen }

end Sys2Proof.Machine
end

