-- ==== Sys2Proof/Machine/Flags.lean ====
section
/-!
DEFINITION. STATUS: the codes of its fields, the word the host reads, and the two flag updates that
commands share (spec/10_state.md R26 to R33, spec/60_exceptions.md R260).
-/

namespace Sys2Proof.Machine

/-- The code of a fault (R260). -/
def ErrCode.code : ErrCode → Byte
  | .badCommand => 0x01
  | .notReady => 0x02
  | .memRange => 0x03
  | .overlap => 0x04
  | .fmtFreqLength => 0x10
  | .fmtFreqZero => 0x11
  | .fmtFreqOrder => 0x12
  | .fmtNoTree => 0x20
  | .fmtTruncated => 0x21
  | .fmtTrailer => 0x22
  | .fmtOffLeaf => 0x23
  | .fmtMidTraversal => 0x24
  | .encUnknownSymbol => 0x30

/-- STATUS.ERR as the host reads it: 0 is no fault (R26). -/
def State.errField (s : State) : Byte :=
  match s.err with
  | none => 0
  | some c => c.code

/-- The code of a tree state (R26, R30). -/
def TreeState.code : TreeState → BitVec 2
  | .invalid => 0
  | .empty => 1
  | .single => 2
  | .multi => 3

/-- STATUS (R26): reserved, HAS_FREQ_COUNT, BUSY, CODES_VALID, TREE_STATE, ERR. -/
def State.status (s : State) : Word :=
  (0#19) ++ BitVec.ofBool s.params.hasFreqCount ++ BitVec.ofBool s.busy ++ BitVec.ofBool s.codesValid
    ++ s.treeState.code ++ s.errField

/-- What every command that writes FREQ does to STATUS: the tree and the codes are stale (R30, R31, R311). -/
def State.invalidate (s : State) : State :=
  { s with treeState := .invalid, codesValid := false }

end Sys2Proof.Machine
end

