-- ==== Sys2Proof/Machine/Operands.lean ====
section
/-!
DEFINITION. The register operands of a command (spec/30_encoding.md R92, R93) and the host's accesses
to the register window (spec/10_state.md R20 to R22, R32).
-/

namespace Sys2Proof.Machine

/-- SRC at issue, an unsigned byte address (R22, R92). -/
def State.srcAddr (s : State) : Nat := s.src.toNat

/-- LEN at issue, an unsigned byte count (R22, R92). -/
def State.srcLen (s : State) : Nat := s.len.toNat

/-- DST at issue, an unsigned byte address (R22, R92). -/
def State.dstAddr (s : State) : Nat := s.dst.toNat

/-- `MemRead(SRC, LEN)` (R62): the source bytes as they stand at issue (R72). -/
def State.source (s : State) : List Byte := s.mem.readBytes s.srcAddr s.srcLen

/-- `InRange(SRC, LEN)` (R63). -/
def State.sourceInRange (s : State) : Bool := inRange s s.srcAddr s.srcLen

/-- `InRange(DST, m)` (R63). -/
def State.destInRange (s : State) (m : Nat) : Bool := inRange s s.dstAddr m

/-- `MemWrite(DST, len(out), out)`, then the end of the command with RESULT `r`. -/
def State.store (s : State) (out : List Byte) (r : Word) : State :=
  { s with mem := s.mem.writeBytes s.dstAddr out }.complete r

/-- The end that ENCODE and DECODE share (R200, R209): MEM_RANGE of the destination, then OVERLAP, then
the write, with RESULT the number `m` of bytes written. The bytes are made only once both checks have
passed. -/
def State.storeOutput (s : State) (m : Nat) (out : Unit → List Byte) : State :=
  if !s.destInRange m then raiseWindow .memRange s
  else if overlaps s.srcAddr s.srcLen s.dstAddr m then raiseWindow .overlap s
  else s.store (out ()) (BitVec.ofNat 32 m)

/-- The byte offset of a register in the window (R20). -/
def Reg.offset : Reg → Nat
  | .cmd => 0x00
  | .src => 0x04
  | .len => 0x08
  | .dst => 0x0C
  | .result => 0x10
  | .status => 0x14
  | .reserved18 => 0x18
  | .reserved1C => 0x1C

/-- The register at an offset of the window; none for an offset that is not a multiple of 4 or outside
the 32 bytes, where the host has no move (R20, R32, X6). -/
def Reg.ofOffset : Nat → Option Reg
  | 0x00 => some .cmd
  | 0x04 => some .src
  | 0x08 => some .len
  | 0x0C => some .dst
  | 0x10 => some .result
  | 0x14 => some .status
  | 0x18 => some .reserved18
  | 0x1C => some .reserved1C
  | _ => none

/-- Where the platform puts a register in the host's address space (R70, R282). -/
def regAddress (p : Params) (r : Reg) : Nat := p.regBase + r.offset

/-- Where the platform puts a byte of buffer memory in the host's address space (R70). -/
def bufAddress (p : Params) (a : Nat) : Nat := p.bufBase + a

/-- A host read of a register (R20, R21): CMD and the reserved words read 0. -/
def State.readReg (s : State) : Reg → Word
  | .cmd => 0
  | .src => s.src
  | .len => s.len
  | .dst => s.dst
  | .result => s.result
  | .status => s.status
  | .reserved18 => 0
  | .reserved1C => 0

/-- A host write of a register other than CMD (R20, R22, R26): RESULT, STATUS and the reserved words
ignore it. A write of CMD stores nothing (R21); the command it issues is `issue`'s. -/
def State.writeReg (s : State) (r : Reg) (v : Word) : State :=
  match r with
  | .src => { s with src := v }
  | .len => { s with len := v }
  | .dst => { s with dst := v }
  | .cmd | .result | .status | .reserved18 | .reserved1C => s

end Sys2Proof.Machine
end

