-- ==== Sys2Proof/Machine/Control.lean ====
section
/-!
DEFINITION. CLEAR_STATUS (spec/43_control.md).
-/

namespace Sys2Proof.Machine

/-- CLEAR_STATUS (R250): the return from a fault; with ERR = 0 it changes nothing. -/
def execClearStatus (s : State) : Host.Outcome State Fault Refusal :=
  .next s.acknowledge

end Sys2Proof.Machine
end

