-- ==== Sys2Proof/Machine/FrequencyTable.lean ====
section
/-!
DEFINITION. FREQ_CLEAR, FREQ_COUNT, FREQ_LOAD, FREQ_STORE, FREQ_READ (spec/40_frequency_table.md).
-/

namespace Sys2Proof.Machine

/-- The empty table (R34, R120). -/
def FreqTable.zero : FreqTable := Vector.replicate numSymbols 0

/-- The symbols present, `{ s : FREQ[s] > 0 }`, in ascending order, each with its count (R35). -/
def present (f : FreqTable) : List (Byte × Word) :=
  (allSymbols.zip f.toList).filter (fun p => 0 < p.2.toNat)

/-- The counts of a buffer: from the empty table, `FREQ[data[i]] <- FREQ[data[i]] + 1` for each i (R124). -/
def countTable (data : List Byte) : FreqTable :=
  data.foldl (fun f b => setEntry f b (entry f b + 1)) FreqTable.zero

/-- `SerFreq(F)` (R130, R131). -/
def serFreq (f : FreqTable) : List Byte := (present f).flatMap (fun p => p.1 :: be32 p.2)

/-- The records of a serialized table in order, each count checked before each symbol (R132, R263).
`prev` is the symbol of the record before, −1 at the first. A rest of 1 to 4 bytes is no record; it
does not arise after the length check of `parseFreq`. -/
def parseRecords : List Byte → Int → FreqTable → Except ErrCode FreqTable
  | v :: b1 :: b2 :: b3 :: b4 :: rest, prev, new =>
    let c := ofBe32 b1 b2 b3 b4
    if c = 0 then .error .fmtFreqZero
    else if (v.toNat : Int) ≤ prev then .error .fmtFreqOrder
    else parseRecords rest v.toNat (setEntry new v c)
  | [], _, new => .ok new
  | _, _, _ => .error .fmtFreqLength

/-- The parser of FREQ_LOAD (R132): the length check, then the records over the empty table. -/
def parseFreq (b : List Byte) : Except ErrCode FreqTable :=
  if b.length % 5 ≠ 0 then .error .fmtFreqLength else parseRecords b (-1) FreqTable.zero

/-- FREQ_CLEAR (R120). -/
def execFreqClear (s : State) : Host.Outcome State Fault Refusal :=
  .next ({ s with freq := FreqTable.zero }.invalidate.complete 0)

/-- FREQ_COUNT (R124). That the command exists is decoding's check (R95, R98). -/
def execFreqCount (s : State) : Host.Outcome State Fault Refusal :=
  if !s.sourceInRange then .next (raise .memRange s)
  else
    let new := countTable s.source
    .next ({ s with freq := new }.invalidate.complete (BitVec.ofNat 32 (present new).length))

/-- FREQ_LOAD (R132, R133). -/
def execFreqLoad (s : State) : Host.Outcome State Fault Refusal :=
  if !s.sourceInRange then .next (raise .memRange s)
  else
    match parseFreq s.source with
    | .error c => .next (raiseTable c s.invalidate)
    | .ok new => .next ({ s with freq := new }.invalidate.complete (BitVec.ofNat 32 (s.srcLen / 5)))

/-- FREQ_STORE (R140). -/
def execFreqStore (s : State) : Host.Outcome State Fault Refusal :=
  let out := serFreq s.freq
  if !s.destInRange out.length then .next (raise .memRange s)
  else .next (s.store out (BitVec.ofNat 32 out.length))

/-- FREQ_READ (R145). -/
def execFreqRead (sym : Byte) (s : State) : Host.Outcome State Fault Refusal :=
  .next (s.complete (entry s.freq sym))

end Sys2Proof.Machine
end

