-- ==== Sys2Proof/Machine/TreeAndCodes.lean ====
section
/-!
DEFINITION. BUILD_TREE, GEN_CODES, CODE_READ (spec/41_tree_and_codes.md).
-/

namespace Sys2Proof.Machine

/-! ## BUILD_TREE -/

/-- NODE[i].WEIGHT (R37). -/
def Node.weight : Node → Weight
  | .leaf _ w _ => w
  | .internal w _ _ _ => w

/-- NODE[i].DISC (R37). -/
def Node.disc : Node → Byte
  | .leaf _ _ d => d
  | .internal _ d _ _ => d

/-- `key(i) = (NODE[i].WEIGHT, NODE[i].DISC)`, compared lexicographically and unsigned (R160, R161). -/
def keyLt (nodes : Vector Node maxNodes) (i j : NodeIndex) : Bool :=
  let wi := nodes[i].weight.toNat
  let wj := nodes[j].weight.toNat
  decide (wi < wj) || (decide (wi = wj) && decide (nodes[i].disc.toNat < nodes[j].disc.toNat))

/-- The index of least key in the build queue, and the queue without it (R160, R162, R163). -/
def popLeast (nodes : Vector Node maxNodes) : List NodeIndex → Option (NodeIndex × List NodeIndex)
  | [] => none
  | i :: q =>
    match popLeast nodes q with
    | none => some (i, [])
    | some (j, q') => if keyLt nodes j i then some (j, i :: q') else some (i, q)

/-- The transient state of BUILD_TREE (R42, R163): the node array, the queue Q and the index `next`. -/
structure Build where
  nodes : Vector Node maxNodes
  queue : List NodeIndex
  next : Nat
  deriving DecidableEq, Repr

/-- The internal node over the popped nodes: the first popped is LEFT, the second RIGHT (R164), the
weight is the 40-bit sum (R165), the discriminator the smaller of the two (R37). -/
def mergeNode (nodes : Vector Node maxNodes) (l r : NodeIndex) : Node :=
  .internal (nodes[l].weight + nodes[r].weight)
    (if nodes[l].disc.toNat ≤ nodes[r].disc.toNat then nodes[l].disc else nodes[r].disc) l r

/-- One pass of the loop of R160; nothing where the queue holds fewer than two nodes. -/
def Build.mergeStep (b : Build) : Build :=
  match popLeast b.nodes b.queue with
  | none => b
  | some (l, q) =>
    match popLeast b.nodes q with
    | none => b
    | some (r, rest) =>
      let i : NodeIndex := Fin.ofNat maxNodes b.next
      { nodes := b.nodes.set i (mergeNode b.nodes l r), queue := i :: rest, next := b.next + 1 }

/-- `n` passes of the loop. Each takes one node off the queue (R166), so k − 1 passes end it. -/
def Build.mergeAll : Nat → Build → Build
  | 0, b => b
  | n + 1, b => mergeAll n b.mergeStep

/-- The leaf of a symbol and its count: WEIGHT is the count zero-extended, DISC the symbol (R160, R165). -/
def leafOf (p : Byte × Word) : Node := .leaf p.1 (p.2.setWidth 40) p.1

/-- The leaves of the symbols `P`, placed from index `i` up (R39, R160). -/
def placeLeaves : List (Byte × Word) → Nat → Vector Node maxNodes → Vector Node maxNodes
  | [], _, nodes => nodes
  | p :: P, i, nodes => placeLeaves P (i + 1) (nodes.set (Fin.ofNat maxNodes i) (leafOf p))

/-- The queue and nodes before the first merge: the k leaves (R160). -/
def Build.start (f : FreqTable) (old : Vector Node maxNodes) : Build :=
  { nodes := placeLeaves (present f) 0 old
    queue := (List.range (present f).length).map (Fin.ofNat maxNodes)
    next := (present f).length }

/-- What BUILD_TREE writes into NODE, NODE_COUNT and ROOT (R160, R167, R168). Entries at or above
NODE_COUNT, and ROOT of an EMPTY tree, are not written. -/
def buildTree (f : FreqTable) (old : Tree) : Tree :=
  match (present f).length with
  | 0 => { old with nodeCount := 0 }
  | 1 => { nodes := placeLeaves (present f) 0 old.nodes, nodeCount := 1, root := 0 }
  | k + 2 =>
    let b := (Build.start f old.nodes).mergeAll (k + 1)
    { nodes := b.nodes, nodeCount := Fin.ofNat (maxNodes + 1) b.next, root := b.queue.headD 0 }

/-- TREE_STATE after BUILD_TREE (R30, R160). -/
def builtState (f : FreqTable) : TreeState :=
  match (present f).length with
  | 0 => .empty
  | 1 => .single
  | _ + 2 => .multi

/-- BUILD_TREE (R160). -/
def execBuildTree (s : State) : Host.Outcome State Fault Refusal :=
  let t := buildTree s.freq s.tree
  .next ({ s with tree := t, treeState := builtState s.freq, codesValid := false }.complete
    (BitVec.ofNat 32 t.nodeCount.val))

/-! ## GEN_CODES -/

/-- The depth-first traversal of R172 with its explicit stack of (node, length, bits), top first, and at
most `fuel` pops; none when they do not empty the stack. A tree has at most 511 nodes and each is
popped once (R173), so 511 pops end it (R330). -/
def traverse (nodes : Vector Node maxNodes) : Nat → List (NodeIndex × Nat × Nat) → CodeTable → Option CodeTable
  | _, [], codes => some codes
  | 0, _ :: _, _ => none
  | fuel + 1, (n, l, b) :: stack, codes =>
    match nodes[n] with
    | .leaf sym _ _ =>
      traverse nodes fuel stack
        (setEntry codes sym { present := true, len := BitVec.ofNat 8 l, bits := BitVec.ofNat maxCodeLen b })
    | .internal _ _ left right =>
      traverse nodes fuel ((left, l + 1, 2 * b) :: (right, l + 1, 2 * b + 1) :: stack) codes

/-- The table with no symbol present (R172). -/
def CodeTable.absent : CodeTable := Vector.replicate numSymbols .absent

/-- The code table of a tree (R172, R176); none when the node array does not hold the tree that the tree
state says. -/
def codeTable (ts : TreeState) (t : Tree) : Option CodeTable :=
  match ts with
  | .invalid | .empty => some CodeTable.absent
  | .single =>
    match t.nodes[t.root] with
    | .leaf sym _ _ => some (setEntry CodeTable.absent sym { present := true, len := 0, bits := 0 })
    | .internal _ _ _ _ => none
  | .multi => traverse t.nodes maxNodes [(t.root, 0, 0)] CodeTable.absent

/-- `max({CODE[s].LEN : CODE[s].PRESENT = 1} ∪ {0})` (R172). -/
def longestCode (codes : CodeTable) : Nat :=
  codes.toList.foldl (fun m e => if e.present then max m e.len.toNat else m) 0

/-- GEN_CODES (R172). -/
def execGenCodes (s : State) : Host.Outcome State Fault Refusal :=
  if s.treeState = .invalid then .next (raise .notReady s)
  else
    match codeTable s.treeState s.tree with
    | none => .fault .brokenTree
    | some codes =>
      .next ({ s with codes := codes, codesValid := true }.complete (BitVec.ofNat 32 (longestCode codes)))

/-! ## CODE_READ -/

/-- The code of an entry as a bit sequence, `[BITS[LEN−1], …, BITS[0]]` (R40). -/
def CodeEntry.code (e : CodeEntry) : List Bool :=
  (List.range e.len.toNat).reverse.map (fun i => e.bits.getLsbD i)

/-- CODE_READ (R178). -/
def execCodeRead (sym : Byte) (s : State) : Host.Outcome State Fault Refusal :=
  if !s.codesValid then .next (raise .notReady s)
  else
    let e := entry s.codes sym
    let m := groupsFor e.len.toNat
    if !s.destInRange m then .next (raise .memRange s)
    else .next (s.store (packGroups m e.code) ((BitVec.ofBool e.present ++ e.len).setWidth 32))

end Sys2Proof.Machine
end

