-- ==== Sys2Proof/Machine/EncodeDecode.lean ====
section
/-!
DEFINITION. ENCODE, the bit-packer, and DECODE, the bit-unpacker and tree walker
(spec/42_encode_decode.md).
-/

namespace Sys2Proof.Machine

/-! ## ENCODE -/

/-- The codes of the data bytes in order, joined into one bit sequence; none at the first byte with no
code (R200, R206). -/
def encodeBits (codes : CodeTable) : List Byte → Option (List Bool)
  | [] => some []
  | b :: data =>
    if (entry codes b).present then (encodeBits codes data).map ((entry codes b).code ++ ·) else none

/-- The trailer byte: the number of meaningful bits of the last data group, 8 for a whole one or for no
bit at all (R201, R202, R207). -/
def trailer (length : Nat) : Byte := BitVec.ofNat 8 (if length % 8 = 0 then 8 else length % 8)

/-- `Pack(S)` (R201). -/
def pack (bits : List Bool) : List Byte :=
  packGroups (groupsFor bits.length) bits ++ [trailer bits.length]

/-- The payload of the data; none is ENC_UNKNOWN_SYMBOL. With an EMPTY tree no byte has a code and empty
data has the empty payload, without a trailer (R205; 90_conflicts.md C1). -/
def encodePayload (ts : TreeState) (codes : CodeTable) (data : List Byte) : Option (List Byte) :=
  if ts = .empty then (if 0 < data.length then none else some [])
  else (encodeBits codes data).map pack

/-- ENCODE (R200). -/
def execEncode (s : State) : Host.Outcome State Fault Refusal :=
  if !s.codesValid then .next (raise .notReady s)
  else if !s.sourceInRange then .next (raise .memRange s)
  else
    match encodePayload s.treeState s.codes s.source with
    | none => .next (raiseWindow .encUnknownSymbol s)
    | some out => .next (s.storeOutput out.length (fun _ => out))

/-! ## DECODE -/

/-- `Unpack(p)` for a payload of at least one byte (R210, R217); the empty payload is FMT_TRUNCATED. -/
def unpack (p : List Byte) : Except ErrCode (List Bool) :=
  match p.getLast? with
  | none => .error .fmtTruncated
  | some t =>
    if t.toNat < 1 ∨ 8 < t.toNat then .error .fmtTrailer
    else if p.length = 1 then (if t.toNat = 8 then .ok [] else .error .fmtTrailer)
    else .ok ((p.dropLast.flatMap bits8).take (8 * (p.length - 2) + t.toNat))

/-- `Walk(bits)` from the cursor `cur` (R213): the bytes emitted and the last cursor; none where the
cursor is a leaf, which a MULTI tree never has. -/
def walk (nodes : Vector Node maxNodes) (root : NodeIndex) :
    NodeIndex → List Bool → Option (List Byte × NodeIndex)
  | cur, [] => some ([], cur)
  | cur, b :: bits =>
    match nodes[cur] with
    | .leaf _ _ _ => none
    | .internal _ _ left right =>
      let child := if b then right else left
      match nodes[child] with
      | .leaf sym _ _ => (walk nodes root root bits).map (fun (out, last) => (sym :: out, last))
      | .internal _ _ _ _ => walk nodes root child bits

/-- DECODE of the meaningful bits with a SINGLE tree (R215). -/
def decodeSingle (bits : List Bool) (s : State) : Host.Outcome State Fault Refusal :=
  if bits.length ≠ 0 then .next (raiseWindow .fmtOffLeaf s)
  else
    match s.tree.nodes[s.tree.root] with
    | .leaf sym w _ => .next (s.storeOutput w.toNat (fun _ => List.replicate w.toNat sym))
    | .internal _ _ _ _ => .fault .brokenTree

/-- DECODE of the meaningful bits with a MULTI tree (R213, R214). -/
def decodeMulti (bits : List Bool) (s : State) : Host.Outcome State Fault Refusal :=
  match walk s.tree.nodes s.tree.root s.tree.root bits with
  | none => .fault .brokenTree
  | some (out, last) =>
    if last ≠ s.tree.root then .next (raiseWindow .fmtMidTraversal s)
    else .next (s.storeOutput out.length (fun _ => out))

/-- DECODE of a payload once the tree and the source range are checked (R209, R216, R217). -/
def decodePayload (p : List Byte) (s : State) : Host.Outcome State Fault Refusal :=
  if s.treeState = .empty then
    if p.length ≠ 0 then .next (raiseWindow .fmtNoTree s) else .next (s.storeOutput 0 (fun _ => []))
  else
    match unpack p with
    | .error c => .next (raiseWindow c s)
    | .ok bits => if s.treeState = .single then decodeSingle bits s else decodeMulti bits s

/-- DECODE (R209). -/
def execDecode (s : State) : Host.Outcome State Fault Refusal :=
  if s.treeState = .invalid then .next (raise .notReady s)
  else if !s.sourceInRange then .next (raise .memRange s)
  else decodePayload s.source s

end Sys2Proof.Machine
end

