-- ==== Sys2Proof/Machine/HostPort.lean ====
section
/-!
DEFINITION. The host's side: issuing a command word (spec/30_encoding.md R95), the actions of a host
program (R110), the expansion of a mnemonic into them (R111), and the host's buffer accesses.
-/

namespace Sys2Proof.Machine

/-- A host write of `w` to CMD (R21, R95). While ERR ≠ 0 only the word 0x00000030 does anything (R28);
an ill-formed word is the fault BAD_COMMAND and nothing else (R96). BUSY is 1 from the issue to the
end of the command (R29). -/
def issue (w : Word) (s : State) : Host.Outcome State Fault Refusal :=
  if s.err ≠ none then
    if w = 0x00000030 then exec .clearStatus { s with busy := true } else .next s
  else
    match decodeWord s.params w with
    | .error _ => .next (raise .badCommand s)
    | .ok i => exec i { s with busy := true }

/-- The host has a move at these bytes: none lies at or above `MEM_BYTES` (R60, X8). -/
def hostMayAccess (s : State) (a : Word) (n : Nat) : Bool := decide (n = 0) || inRange s a.toNat n

/-- One action of the host or the platform (R110, R300). -/
def act (h : HostAction) (s : State) : Host.Outcome State Fault Refusal :=
  match h with
  | .memw a bytes =>
    if hostMayAccess s a bytes.length then .next { s with mem := s.mem.writeBytes a.toNat bytes }
    else .refused .hostOutsideMemory
  | .memr a n =>
    if hostMayAccess s a n then .next { s with seen := s.seen ++ [.mem a (s.mem.readBytes a.toNat n)] }
    else .refused .hostOutsideMemory
  | .wr .cmd w => issue w s
  | .wr r v => .next (s.writeReg r v)
  | .rd r => .next { s with seen := s.seen ++ [.reg r (s.readReg r)] }
  | .reset => .next s.afterReset

/-- A step of the machine: the host's next action; with none left the block is idle and holds all state
(R23, R285). -/
def stepHost (s : State) : Host.Outcome State Fault Refusal :=
  match s.program with
  | [] => .next s
  | h :: rest => act h { s with program := rest }

/-- The host's next action becomes the write of a command word to CMD. -/
def placeWord (w : Word) (s : State) : State := { s with program := .wr .cmd w :: s.program }

/-- What a mnemonic of a host program expands to (R111): an operand left out writes nothing. -/
def expand (i : Instr) (src len dst : Option Word) : List HostAction :=
  (src.map (HostAction.wr .src)).toList ++ (len.map (HostAction.wr .len)).toList
    ++ (dst.map (HostAction.wr .dst)).toList ++ [.wr .cmd (encodeWord i)]

end Sys2Proof.Machine
end

