-- ==== Sys2Proof/Machine/Step.lean ====
section
/-! DEFINITION. The step, and placing a command word where the next step takes it. -/

namespace Sys2Proof.Machine

/-- One step: the host's next action (R12, R23). -/
def step (s : State) : Host.Outcome State Fault Refusal := stepHost s

/-- `s` with the command word of an opcode-table row as the host's next write of CMD, the bits above
`nbits` 0 (log entry 7). -/
def State.withFetchWord (s : State) (nbits w : Nat) : State :=
  placeWord (BitVec.ofNat 32 (w % 2 ^ nbits)) s

end Sys2Proof.Machine
end

