-- ==== Sys2Proof/Safety.lean ====
section
/-!
DEFINITION. What claims rest on: the invariant of the block between host actions, and what it is for a
run to meet no fault (spec/60_exceptions.md R264).
-/

namespace Sys2Proof.Machine

/-- What holds of the machine at every point the host can observe. -/
structure State.Inv (s : State) : Prop where
  /-- 1 ≤ `MEM_BYTES` (R10). -/
  params_wf : s.params.wf
  /-- The buffer memory keeps its canonical form. -/
  mem_wf : s.mem.wf = true
  /-- Every byte the memory lists exists (R60). -/
  cells_inside : ∀ c ∈ s.mem.cells, c.1 < s.memBytes
  /-- Windows start inside memory, and their draws were taken. -/
  windows_inside : ∀ w ∈ s.mem.windows, w.1 < s.memBytes ∧ w.2 < s.draws
  /-- BUSY reads 0 (R26, R29). -/
  idle : s.busy = false
  /-- CODES_VALID = 1 ⇒ TREE_STATE ≠ INVALID (R31). -/
  codes_need_tree : s.codesValid = true → s.treeState ≠ .invalid
  /-- Unless TREE_STATE is INVALID, the node array holds the tree of the current table (R30). -/
  tree_current : s.treeState ≠ .invalid →
    s.treeState = builtState s.freq ∧ ∃ old, s.tree = buildTree s.freq old
  /-- CODES_VALID is 1 only when the code table was generated from the current tree (R31). -/
  codes_current : s.codesValid = true → codeTable s.treeState s.tree = some s.codes
  /-- A fault not yet cleared is the last one of the history (R26, R270). -/
  err_recorded : ∀ c, s.err = some c → s.faults.getLast? = some c

/-- The invariant with BUSY left aside: what holds both of the states the host observes and of the state a
command starts from, whose BUSY is 1 (R29). -/
abbrev State.InvAtIssue (s : State) : Prop := ({ s with busy := false } : State).Inv

/-- No fault happened between `s` and `t`: the history, which nothing clears, did not grow (R264). -/
def noFaultSince (s t : State) : Prop := t.faults = s.faults

/-- The codes a command may raise: the "raised by" column of R260. BAD_COMMAND is the decoder's alone. -/
def faultsOf : Instr → List ErrCode
  | .freqClear => []
  | .freqCount => [.memRange]
  | .freqLoad => [.memRange, .fmtFreqLength, .fmtFreqZero, .fmtFreqOrder]
  | .freqStore => [.memRange]
  | .freqRead _ => []
  | .buildTree => []
  | .genCodes => [.notReady]
  | .codeRead _ => [.notReady, .memRange]
  | .encode => [.notReady, .memRange, .encUnknownSymbol, .overlap]
  | .decode => [.notReady, .memRange, .fmtNoTree, .fmtTruncated, .fmtTrailer, .fmtOffLeaf,
      .fmtMidTraversal, .overlap]
  | .clearStatus => []

end Sys2Proof.Machine
end

