-- ==== Sys2Proof/Certificates/Slice0/Obligations.lean ====
section
/-!
DEFINITION. The statements for the provers. Each docstring names the rule it formalises. A next state is
often given as `t = { s with … }`: that equation is the frame, since every field it does not name is
unchanged.
-/

open Sys2Proof Sys2Proof.Machine

/-! ## Encoding (30_encoding.md) -/

/-- R94, and R98 for FREQ_COUNT: the words of the opcode table, and no others, are commands. -/
def Obligations.OpcodeMapIsExact : Prop :=
  ∀ (p : Params) (w : Word) (i : Instr), decodeWord p w = .ok i ↔
    match i with
    | .freqClear => w = 0x00000001
    | .freqCount => p.hasFreqCount = true ∧ w = 0x00000002
    | .freqLoad => w = 0x00000003
    | .freqStore => w = 0x00000004
    | .freqRead s => w = 0x00000005 + (s.setWidth 32 <<< 8)
    | .buildTree => w = 0x00000010
    | .genCodes => w = 0x00000011
    | .codeRead s => w = 0x00000012 + (s.setWidth 32 <<< 8)
    | .encode => w = 0x00000020
    | .decode => w = 0x00000021
    | .clearStatus => w = 0x00000030

/-- R90, R94: decoding the word of a command that the build has gives the command back, with its symbol,
and the word of a command decodes to nothing else in a build without it. -/
def Obligations.DecodeInvertsEncode : Prop :=
  ∀ (p : Params) (i : Instr),
    decodeWord p (encodeWord i) = if i.wellFormed p then .ok i else .error .freqCountAbsent

/-- R94: words of each family, written out from the opcode map, decode to their commands, in a build with
FREQ_COUNT (log entry 1). -/
def Obligations.SampleWordsDecode : Prop :=
  decodeTableWord 32 0x00000002 = some .freqCount ∧ decodeTableWord 32 0x00007205 = some (.freqRead 0x72) ∧
  decodeTableWord 32 0x00000010 = some .buildTree ∧ decodeTableWord 32 0x00006312 = some (.codeRead 0x63) ∧
  decodeTableWord 32 0x00000020 = some .encode ∧ decodeTableWord 32 0x00000021 = some .decode ∧
  decodeTableWord 32 0x00000030 = some .clearStatus ∧ decodeTableWord 32 0x00000120 = none ∧
  decodeTableWord 32 0x00010005 = none ∧ decodeTableWord 32 0x00000000 = none

/-! ## Issuing a command, the host's accesses, reset -/

/-- R21, R95: with no fault pending, a host write of the word of a command runs that command, with BUSY
set, on the state past the action. -/
def Obligations.StepRunsTheDecodedCommand : Prop :=
  ∀ (s : State) (w : Word) (rest : List HostAction) (i : Instr), s.program = .wr .cmd w :: rest →
    s.err = none → decodeWord s.params w = .ok i → step s = exec i { s with program := rest, busy := true }

/-- R96: an illegal word raises BAD_COMMAND and changes nothing else but RESULT, which R265 leaves
unspecified, and the history. -/
def Obligations.IllegalWordFaultsAndChangesNothingElse : Prop :=
  ∀ (s : State) (w : Word) (rest : List HostAction) (e : DecodeError), s.program = .wr .cmd w :: rest →
    s.err = none → decodeWord s.params w = .error e →
    ∃ t, step s = .next t ∧
      t = { s with program := rest, err := some .badCommand, busy := false, result := t.result,
                   faults := s.faults ++ [.badCommand], draws := t.draws }

/-- R28: while ERR ≠ 0, every command word but CLEAR_STATUS changes no state at all. -/
def Obligations.FaultedBlockIgnoresOtherWords : Prop :=
  ∀ (s : State) (w : Word) (rest : List HostAction), s.program = .wr .cmd w :: rest → s.err ≠ none →
    w ≠ 0x00000030 → step s = .next { s with program := rest }

/-- R250: CLEAR_STATUS sets ERR to 0 and changes nothing else, with ERR ≠ 0 and with ERR = 0; with ERR = 0 a
word of its opcode with a nonzero SYM or RSV faults BAD_COMMAND. -/
def Obligations.ClearStatusAcknowledges : Prop :=
  (∀ s : State, exec .clearStatus s = .next { s with err := none, busy := false }) ∧
  (∀ (s : State) (rest : List HostAction), s.program = .wr .cmd 0x00000030 :: rest →
    step s = .next { s with program := rest, err := none, busy := false }) ∧
  ∀ (s : State) (w : Word) (rest : List HostAction), s.program = .wr .cmd w :: rest → s.err = none →
    opField w = 0x30 → w ≠ 0x00000030 → ∃ t, step s = .next t ∧ t.err = some .badCommand

/-- R285: with no host action left the block is idle and holds all state. -/
def Obligations.IdleBlockHoldsItsState : Prop :=
  ∀ s : State, s.program = [] → step s = .next s

/-- R20, R21, R22, R26: what a host read of each register returns, with no effect on the block, and what a
host write stores: SRC, LEN and DST take it; RESULT, STATUS and the reserved words ignore it. -/
def Obligations.HostAccessesRegisters : Prop :=
  ∀ (s : State) (v : Word) (rest : List HostAction),
    (∀ r : Reg, s.program = .rd r :: rest →
      ∃ got : Word, step s = .next { s with program := rest, seen := s.seen ++ [.reg r got] } ∧
        match r with
        | .cmd | .reserved18 | .reserved1C => got = 0
        | .src => got = s.src
        | .len => got = s.len
        | .dst => got = s.dst
        | .result => got = s.result
        | .status => got = s.status) ∧
    (s.program = .wr .src v :: rest → step s = .next { s with program := rest, src := v }) ∧
    (s.program = .wr .len v :: rest → step s = .next { s with program := rest, len := v }) ∧
    (s.program = .wr .dst v :: rest → step s = .next { s with program := rest, dst := v }) ∧
    ∀ r ∈ ([.result, .status, .reserved18, .reserved1C] : List Reg),
      s.program = .wr r v :: rest → step s = .next { s with program := rest }

/-- R60, R62, R68: the host's buffer accesses: bytes written read back, other bytes keep their value, and
a nonempty write or read that reaches past MEM_BYTES is no move (X8). -/
def Obligations.HostAccessesBufferMemory : Prop :=
  ∀ (s : State) (a : Word) (bytes : List Byte) (rest : List HostAction),
    (s.program = .memw a bytes :: rest → a.toNat + bytes.length ≤ s.memBytes →
      ∃ t, step s = .next t ∧ t = { s with program := rest, mem := t.mem } ∧
        t.mem.readBytes a.toNat bytes.length = bytes ∧
        ∀ x, ¬ (a.toNat ≤ x ∧ x < a.toNat + bytes.length) → t.mem.read x = s.mem.read x) ∧
    (s.program = .memw a bytes :: rest → bytes ≠ [] → s.memBytes < a.toNat + bytes.length →
      step s = .refused .hostOutsideMemory) ∧
    (∀ n, s.program = .memr a n :: rest → a.toNat + n ≤ s.memBytes →
      ∃ got, step s = .next { s with program := rest, seen := s.seen ++ [.mem a got] } ∧ got.length = n ∧
        ∀ i, i < n → got[i]? = some (s.mem.read (a.toNat + i))) ∧
    (∀ n, s.program = .memr a n :: rest → 0 < n → s.memBytes < a.toNat + n →
      step s = .refused .hostOutsideMemory)

/-- R26: the layout of STATUS. -/
def Obligations.StatusWordLayout : Prop :=
  ∀ s : State,
    s.status.extractLsb' 0 8 = (match s.err with | none => 0 | some c => c.code) ∧
    s.status.extractLsb' 8 2 =
      (match s.treeState with | .invalid => 0 | .empty => 1 | .single => 2 | .multi => 3) ∧
    s.status.getLsbD 10 = s.codesValid ∧ s.status.getLsbD 11 = s.busy ∧
    s.status.getLsbD 12 = s.params.hasFreqCount ∧ s.status.extractLsb' 13 19 = 0

/-- R44, R300: what reset leaves, whatever came before; memory is a fresh draw. The entries R44 leaves
unspecified are not stated. -/
def Obligations.ResetSetsEveryStatedValue : Prop :=
  ∀ (s : State) (rest : List HostAction), s.program = .reset :: rest →
    ∃ t, step s = .next t ∧ t.program = rest ∧ t.params = s.params ∧
      t.src = 0 ∧ t.len = 0 ∧ t.dst = 0 ∧ t.result = 0 ∧ t.readReg .cmd = 0 ∧
      t.err = none ∧ t.treeState = .invalid ∧ t.codesValid = false ∧ t.busy = false ∧
      t.status.getLsbD 12 = s.params.hasFreqCount ∧ (∀ sym, entry t.freq sym = 0) ∧
      t.tree.nodeCount.val = 0 ∧ (∀ a, t.mem.read a = Config.freeByte s.draws a) ∧ s.draws < t.draws

/-- R302: right after reset the table is empty and TREE_STATE is INVALID, so DECODE and GEN_CODES fault
NOT_READY, and BUILD_TREE gives the EMPTY tree. -/
def Obligations.AfterResetATreeMustBeBuilt : Prop :=
  ∀ (s : State) (rest : List HostAction), s.program = .reset :: rest →
    ∃ t, step s = .next t ∧ (∀ x, entry t.freq x = 0) ∧ t.treeState = .invalid ∧
      (∃ u, exec .decode t = .next u ∧ u.err = some .notReady) ∧
      (∃ u, exec .genCodes t = .next u ∧ u.err = some .notReady) ∧
      ∃ u, exec .buildTree t = .next u ∧ u.treeState = .empty ∧ u.result = 0 ∧ u.err = none

/-! ## Faults (60_exceptions.md) -/

/-- R260: the code of each fault and which commands raise it. -/
def Obligations.FaultCodesAndWhoRaisesThem : Prop :=
  ([ErrCode.badCommand, .notReady, .memRange, .overlap, .fmtFreqLength, .fmtFreqZero, .fmtFreqOrder,
    .fmtNoTree, .fmtTruncated, .fmtTrailer, .fmtOffLeaf, .fmtMidTraversal, .encUnknownSymbol].map ErrCode.code
    = ([0x01, 0x02, 0x03, 0x04, 0x10, 0x11, 0x12, 0x20, 0x21, 0x22, 0x23, 0x24, 0x30] : List Byte)) ∧
  ∀ (i : Instr) (s t : State) (c : ErrCode), s.err = none → exec i s = .next t → t.err = some c →
    match c with
    | .badCommand => False
    | .notReady => i = .genCodes ∨ (∃ x, i = .codeRead x) ∨ i = .encode ∨ i = .decode
    | .memRange => i = .freqCount ∨ i = .freqLoad ∨ i = .freqStore ∨ (∃ x, i = .codeRead x) ∨ i = .encode
        ∨ i = .decode
    | .overlap => i = .encode ∨ i = .decode
    | .fmtFreqLength | .fmtFreqZero | .fmtFreqOrder => i = .freqLoad
    | .fmtNoTree | .fmtTruncated | .fmtTrailer | .fmtOffLeaf | .fmtMidTraversal => i = .decode
    | .encUnknownSymbol => i = .encode

/-- R264, R265, R268: a fault sets ERR to its code and BUSY to 0, and is added to the history; RESULT is the
draw the fault took, whatever value that is; the operand registers, the parameters and the host's side stay.
What it leaves in memory and in the tables is R266's and R267's. -/
def Obligations.FaultEntry : Prop :=
  ∀ (i : Instr) (s t : State) (c : ErrCode), s.err = none → exec i s = .next t → t.err = some c →
    t = { s with err := some c, busy := false, result := Config.freeResult s.draws, faults := s.faults ++ [c],
                 draws := s.draws + 1, mem := t.mem, freq := t.freq, treeState := t.treeState,
                 codesValid := t.codesValid }

/-- R267: what a fault leaves in the tables. -/
def Obligations.FaultLeavesTheTables : Prop :=
  ∀ (i : Instr) (s t : State) (c : ErrCode), s.err = none → exec i s = .next t → t.err = some c →
    t.tree = s.tree ∧ t.codes = s.codes ∧
    if i = .freqLoad ∧ c ≠ .memRange then
      t.treeState = .invalid ∧ t.codesValid = false ∧
        ∀ sym, entry t.freq sym = Config.freeCount s.draws sym
    else t.freq = s.freq ∧ t.treeState = s.treeState ∧ t.codesValid = s.codesValid

/-- R266: what a fault leaves in buffer memory. Only a fault of ENCODE or DECODE that is not NOT_READY and
comes after the source check leaves the destination window unspecified. -/
def Obligations.FaultLeavesMemory : Prop :=
  ∀ (i : Instr) (s t : State) (c : ErrCode), s.err = none → exec i s = .next t → t.err = some c →
    if (i = .encode ∨ i = .decode) ∧ c ≠ .notReady ∧ s.sourceInRange = true then
      (∀ a, a < s.dstAddr → t.mem.read a = s.mem.read a) ∧
      ∀ a, s.dstAddr ≤ a → a < s.memBytes → t.mem.read a = Config.freeByte s.draws a
    else t.mem = s.mem

/-- R263, R264, R27: a step records at most one fault, and no command takes a fault out of the history; a
nonzero ERR changes by CLEAR_STATUS or reset alone, and then to 0. That a reset keeps the history too is the
model's choice (log entry 6): R264 speaks of commands only. -/
def Obligations.FaultsAreRecordedOnceAndSticky : Prop :=
  ∀ s t : State, step s = .next t →
    (t.faults = s.faults ∨ ∃ c, t.faults = s.faults ++ [c] ∧ t.err = some c) ∧
    ∀ c, s.err = some c → t.err = some c ∨
      (t.err = none ∧ (s.program.head? = some .reset ∨ s.program.head? = some (.wr .cmd 0x00000030)))

/-! ## The frequency table (40_frequency_table.md) -/

/-- R120: FREQ_CLEAR gives the empty table, whatever the state. -/
def Obligations.FreqClearEmptiesTheTable : Prop :=
  ∀ s : State, ∃ t, exec .freqClear s = .next t ∧ (∀ sym, entry t.freq sym = 0) ∧
    t = { s with freq := t.freq, treeState := .invalid, codesValid := false, result := 0, busy := false }

/-- R124, R125: a FREQ_COUNT whose source is in memory completes: each entry is the number of its symbol's
occurrences, the counts sum to n, and RESULT is the number of symbols that occur. -/
def Obligations.FreqCountCountsTheBuffer : Prop :=
  ∀ s : State, s.srcAddr + s.srcLen ≤ s.memBytes → ∃ t, exec .freqCount s = .next t ∧
    (∀ sym, (entry t.freq sym).toNat = s.source.count sym) ∧
    (t.freq.toList.map BitVec.toNat).sum = s.srcLen ∧
    t.result.toNat = s.source.toFinset.card ∧
    t = { s with freq := t.freq, treeState := .invalid, codesValid := false, result := t.result, busy := false }

/-- R134: FREQ_LOAD accepts exactly the serialized tables, and sets FREQ to the table. -/
def Obligations.FreqLoadAcceptsExactlySerializedTables : Prop :=
  ∀ s : State, s.srcAddr + s.srcLen ≤ s.memBytes →
    (∀ f : FreqTable, s.source = serFreq f → exec .freqLoad s = .next
      { s with freq := f, treeState := .invalid, codesValid := false,
               result := BitVec.ofNat 32 (s.srcLen / 5), busy := false }) ∧
    ((∀ f : FreqTable, s.source ≠ serFreq f) → ∃ (t : State) (c : ErrCode), exec .freqLoad s = .next t ∧
      t.err = some c ∧ c ∈ ([.fmtFreqLength, .fmtFreqZero, .fmtFreqOrder] : List ErrCode))

/-- R132, R263: the first failing check of FREQ_LOAD wins: the length, then record by record the count
before the symbol. `good` are the records before the failing one, as R130 wants them. -/
def Obligations.FreqLoadFaultsAtTheFirstBadRecord : Prop :=
  ∀ s : State, s.srcAddr + s.srcLen ≤ s.memBytes →
    (s.srcLen % 5 ≠ 0 → ∃ t, exec .freqLoad s = .next t ∧ t.err = some .fmtFreqLength) ∧
    (s.srcLen % 5 = 0 → ∀ (good : List (Byte × Word)) (v : Byte) (n : Word) (rest : List Byte),
      (good.Pairwise fun p q => p.1.toNat < q.1.toNat) → (∀ p ∈ good, p.2 ≠ 0) →
      s.source = (good.flatMap fun p => p.1 :: be32 p.2) ++ v :: be32 n ++ rest →
      (n = 0 → ∃ t, exec .freqLoad s = .next t ∧ t.err = some .fmtFreqZero) ∧
      (n ≠ 0 → (∃ p ∈ good, v.toNat ≤ p.1.toNat) →
        ∃ t, exec .freqLoad s = .next t ∧ t.err = some .fmtFreqOrder))

/-- R130, R131: the serialized table: one record for each symbol with a nonzero count, ascending, the
symbol and then its count big-endian, 5 bytes a record. -/
def Obligations.SerializedTableForm : Prop :=
  ∀ f : FreqTable, ∃ P : List (Byte × Word),
    (P.Pairwise fun p q => p.1.toNat < q.1.toNat) ∧
    (∀ s c, (s, c) ∈ P ↔ c = entry f s ∧ c ≠ 0) ∧
    serFreq f = P.flatMap (fun p => [p.1, BitVec.ofNat 8 (p.2.toNat / 2 ^ 24), BitVec.ofNat 8 (p.2.toNat / 2 ^ 16),
      BitVec.ofNat 8 (p.2.toNat / 2 ^ 8), BitVec.ofNat 8 p.2.toNat]) ∧
    (serFreq f).length = 5 * P.length ∧ P.length ≤ 256

/-- R140, R77: a FREQ_STORE whose output fits completes: the serialized table is at DST, RESULT is its
length, and every other byte is unchanged. -/
def Obligations.FreqStoreWritesTheSerializedTable : Prop :=
  ∀ s : State, s.dstAddr + (serFreq s.freq).length ≤ s.memBytes → ∃ t, exec .freqStore s = .next t ∧
    t.mem.readBytes s.dstAddr (serFreq s.freq).length = serFreq s.freq ∧
    (∀ a, a < s.dstAddr ∨ s.dstAddr + (serFreq s.freq).length ≤ a → t.mem.read a = s.mem.read a) ∧
    t.result.toNat = (serFreq s.freq).length ∧ t = { s with mem := t.mem, result := t.result, busy := false }

/-- R136: FREQ_LOAD of the bytes that FREQ_STORE wrote gives the table back, in any later state; and
FREQ_STORE after a successful FREQ_LOAD writes the bytes that were loaded. -/
def Obligations.TableRoundTrip : Prop :=
  (∀ s t u : State, s.err = none → exec .freqStore s = .next t → t.err = none →
    u.source = t.mem.readBytes s.dstAddr t.result.toNat → u.srcAddr + u.srcLen ≤ u.memBytes →
    ∃ v, exec .freqLoad u = .next v ∧ v.freq = s.freq ∧ v.err = u.err) ∧
  ∀ u v w : State, u.err = none → exec .freqLoad u = .next v → v.err = none → w.freq = v.freq →
    w.dstAddr + u.srcLen ≤ w.memBytes →
    ∃ x, exec .freqStore w = .next x ∧ x.result = u.len ∧
      x.mem.readBytes w.dstAddr u.srcLen = u.source ∧ x.err = w.err

/-- R145: FREQ_READ gives the count of its symbol and changes nothing else, for every symbol. -/
def Obligations.FreqReadGivesTheCount : Prop :=
  ∀ (s : State) (sym : Byte),
    exec (.freqRead sym) s = .next { s with result := s.freq[sym.toNat]'(sym.isLt), busy := false }

/-- R63, R124, R132, R140, R178: a source range of FREQ_COUNT or FREQ_LOAD, an output of FREQ_STORE or, with
valid codes, of CODE_READ that is not inside memory is MEM_RANGE, with nothing written and nothing else
changed. -/
def Obligations.RangeFaultsOfTheTableCommands : Prop :=
  ∀ (s : State) (i : Instr),
    ((i = .freqCount ∨ i = .freqLoad) ∧ s.memBytes < s.srcAddr + s.srcLen) ∨
      (i = .freqStore ∧ s.memBytes < s.dstAddr + (serFreq s.freq).length) ∨
      (∃ x, i = .codeRead x ∧ s.codesValid = true ∧
        s.memBytes < s.dstAddr + ((entry s.codes x).len.toNat + 7) / 8) →
    ∃ t, exec i s = .next t ∧ t = { s with err := some .memRange, busy := false, result := t.result,
                                           faults := s.faults ++ [.memRange], draws := t.draws }

/-! ## The tree (41_tree_and_codes.md section 1) -/

/-- R160, R167, R168: with every count 0 BUILD_TREE builds no tree; with one nonzero count the tree is the
one leaf of that symbol and its count. -/
def Obligations.BuildTreeOfFewSymbols : Prop :=
  ∀ s : State,
    ((∀ x, entry s.freq x = 0) → ∃ t, exec .buildTree s = .next t ∧ t.tree.nodeCount.val = 0 ∧
      t = { s with tree := t.tree, treeState := .empty, codesValid := false, result := 0, busy := false }) ∧
    ∀ x : Byte, entry s.freq x ≠ 0 → (∀ y, y ≠ x → entry s.freq y = 0) →
      ∃ t, exec .buildTree s = .next t ∧ t.tree.nodeCount.val = 1 ∧ t.tree.root.val = 0 ∧
        t.tree.nodes[0] = .leaf x ((entry s.freq x).setWidth 40) x ∧
        t = { s with tree := t.tree, treeState := .single, codesValid := false, result := 1, busy := false }

/-- R160, R166: with k ≥ 2 symbols BUILD_TREE makes a MULTI tree of 2k − 1 nodes with ROOT = 2k − 2. -/
def Obligations.BuildTreeOfManySymbols : Prop :=
  ∀ s : State, ∀ k, k = (allSymbols.filter fun x => entry s.freq x ≠ 0).length → 2 ≤ k →
    ∃ t, exec .buildTree s = .next t ∧ t.tree.nodeCount.val = 2 * k - 1 ∧ t.tree.root.val = 2 * k - 2 ∧
      t.result.toNat = 2 * k - 1 ∧
      t = { s with tree := t.tree, treeState := .multi, codesValid := false, result := t.result, busy := false }

/-- R37, R39, R165: the node array after BUILD_TREE: leaves at 0 to k − 1 in ascending order of symbol,
then internal nodes whose children lie below them, with the sum of their weights (which never wraps) and
the smaller of their discriminators. -/
def Obligations.NodeArrayIsAStrictBinaryTree : Prop :=
  ∀ (f : FreqTable) (old : Tree), 2 ≤ (present f).length → ∀ i : NodeIndex,
    (∀ h : i.val < (present f).length,
      (buildTree f old).nodes[i] =
        .leaf (present f)[i.val].1 ((present f)[i.val].2.setWidth 40) (present f)[i.val].1) ∧
    ((present f).length ≤ i.val → i.val < 2 * (present f).length - 1 →
      ∃ (w : Weight) (d : Byte) (l r : NodeIndex), (buildTree f old).nodes[i] = .internal w d l r ∧
        l ≠ r ∧ l < i ∧ r < i ∧
        w.toNat = ((buildTree f old).nodes[l]).weight.toNat + ((buildTree f old).nodes[r]).weight.toNat ∧
        d.toNat = min ((buildTree f old).nodes[l]).disc.toNat ((buildTree f old).nodes[r]).disc.toNat)

/-- R165: the root's weight is the sum of all counts, for a tree of any size. -/
def Obligations.RootWeightIsTheSumOfTheCounts : Prop :=
  ∀ (f : FreqTable) (old : Tree), 1 ≤ (present f).length →
    ((buildTree f old).nodes[(buildTree f old).root]).weight.toNat = (f.toList.map BitVec.toNat).sum

/-- R160, R161, R164: a pop takes the node of least (weight, discriminator) off the queue, and the two pops
of a merge are its LEFT and RIGHT in that order. -/
def Obligations.PopsTakeTheLeastKey : Prop :=
  (∀ (nodes : Vector Node maxNodes) (q rest : List NodeIndex) (i : NodeIndex),
    popLeast nodes q = some (i, rest) → q.Perm (i :: rest) ∧ ∀ j ∈ rest,
      nodes[i].weight.toNat < nodes[j].weight.toNat ∨
      (nodes[i].weight.toNat = nodes[j].weight.toNat ∧ nodes[i].disc.toNat ≤ nodes[j].disc.toNat)) ∧
  ∀ (b : Build) (l r : NodeIndex) (q rest : List NodeIndex), b.next < maxNodes →
    popLeast b.nodes b.queue = some (l, q) → popLeast b.nodes q = some (r, rest) →
    ∃ (w : Weight) (d : Byte), b.mergeStep.nodes[b.next]? = some (.internal w d l r) ∧
      b.mergeStep.queue.length + 1 = b.queue.length

/-- R162: the keys in the queue are distinct all through BUILD_TREE, since the discriminators are. -/
def Obligations.QueueKeysAreDistinct : Prop :=
  ∀ (f : FreqTable) (old : Vector Node maxNodes) (n : Nat),
    (((Build.start f old).mergeAll n).queue.map fun i =>
      (((Build.start f old).mergeAll n).nodes[i]).disc).Nodup

/-- R169: the tree depends on FREQ alone: what the array held before makes no difference to it. -/
def Obligations.TreeDependsOnTheTableAlone : Prop :=
  ∀ (f : FreqTable) (old old' : Tree),
    (buildTree f old).nodeCount = (buildTree f old').nodeCount ∧
    (1 ≤ (present f).length → (buildTree f old).root = (buildTree f old').root) ∧
    ∀ i : NodeIndex, i.val < (buildTree f old).nodeCount.val →
      (buildTree f old).nodes[i] = (buildTree f old').nodes[i]

/-! ## The codes (41_tree_and_codes.md sections 2 and 3) -/

/-- R172: GEN_CODES and DECODE with TREE_STATE = INVALID, CODE_READ and ENCODE with CODES_VALID = 0, fault
NOT_READY and change nothing but ERR, RESULT and the history. -/
def Obligations.CommandsNeedTheirTreeOrCodes : Prop :=
  ∀ (s : State) (i : Instr),
    ((i = .genCodes ∨ i = .decode) ∧ s.treeState = .invalid) ∨
      ((i = .encode ∨ ∃ x, i = .codeRead x) ∧ s.codesValid = false) →
    ∃ t, exec i s = .next t ∧ t = { s with err := some .notReady, busy := false, result := t.result,
                                           faults := s.faults ++ [.notReady], draws := t.draws }

/-- R172, R171, R40: with a current tree GEN_CODES completes: PRESENT for exactly the symbols with a nonzero
count, the absent entries 0, and RESULT the longest code length. -/
def Obligations.GenCodesDerivesTheCodeTable : Prop :=
  ∀ s : State, s.InvAtIssue → s.treeState ≠ .invalid → ∃ t, exec .genCodes s = .next t ∧
    (∀ x, (entry t.codes x).present = true ↔ entry s.freq x ≠ 0) ∧
    (∀ x, entry s.freq x = 0 → (entry t.codes x).len = 0 ∧ (entry t.codes x).bits = 0) ∧
    (∀ x, (entry t.codes x).len.toNat ≤ t.result.toNat) ∧
    (t.result = 0 ∨ ∃ x, entry s.freq x ≠ 0 ∧ (entry t.codes x).len.toNat = t.result.toNat) ∧
    t = { s with codes := t.codes, codesValid := true, result := t.result, busy := false }

/-- R173: in a MULTI tree the code of a present symbol is the path from the root to its leaf: walking it
emits the symbol at its last bit and not before. -/
def Obligations.CodesArePathsOfTheTree : Prop :=
  ∀ s : State, s.Inv → s.treeState = .multi → s.codesValid = true → ∀ x, (entry s.codes x).present = true →
    (entry s.codes x).code ≠ [] ∧
    walk s.tree.nodes s.tree.root s.tree.root (entry s.codes x).code = some ([x], s.tree.root) ∧
    ∀ p, p <+: (entry s.codes x).code → p ≠ (entry s.codes x).code →
      ∃ cur, walk s.tree.nodes s.tree.root s.tree.root p = some ([], cur)

/-- R174: in a MULTI tree no code of a present symbol begins another's, and a bit sequence splits into codes in
at most one way. -/
def Obligations.CodesArePrefixFree : Prop :=
  ∀ s : State, s.Inv → s.treeState = .multi → s.codesValid = true →
    (∀ x y, (entry s.codes x).present = true → (entry s.codes y).present = true →
      (entry s.codes x).code <+: (entry s.codes y).code → x = y) ∧
    ∀ d d' : List Byte, (∀ b ∈ d, (entry s.codes b).present = true) →
      (∀ b ∈ d', (entry s.codes b).present = true) →
      (d.flatMap fun b => (entry s.codes b).code) = (d'.flatMap fun b => (entry s.codes b).code) → d = d'

/-- R175: in a MULTI tree the code lengths meet the Kraft equality, here times 2^255, and every bit sequence as
long as the longest code can be starts with exactly one code. -/
def Obligations.CodeLengthsMeetKraftEquality : Prop :=
  ∀ s : State, s.Inv → s.treeState = .multi → s.codesValid = true →
    ((allSymbols.filter fun x => (entry s.codes x).present).map
      fun x => 2 ^ (255 - (entry s.codes x).len.toNat)).sum = 2 ^ 255 ∧
    ∀ bits : List Bool, bits.length = 255 →
      ∃ x, ((entry s.codes x).present = true ∧ (entry s.codes x).code <+: bits) ∧
        ∀ y, (entry s.codes y).present = true → (entry s.codes y).code <+: bits → y = x

/-- R170, R40: a code is shorter than the number of symbols present (so the one symbol of a SINGLE tree has the
empty code, R176), and BITS holds it with the bits above LEN 0. -/
def Obligations.CodeLengthsAreBounded : Prop :=
  ∀ s : State, s.Inv → s.codesValid = true → ∀ x,
    ((entry s.codes x).present = true → (entry s.codes x).len.toNat < (present s.freq).length) ∧
    (entry s.codes x).bits.toNat < 2 ^ (entry s.codes x).len.toNat

/-- R177: the code table depends on FREQ alone: two states with the same table and valid codes hold the same
codes. -/
def Obligations.CodeMapDependsOnTheTableAlone : Prop :=
  ∀ s u : State, s.Inv → u.Inv → s.codesValid = true → u.codesValid = true → s.freq = u.freq →
    s.codes = u.codes

/-- R178: a CODE_READ whose output fits completes: the code and then zero padding at DST, RESULT the
PRESENT bit above LEN. -/
def Obligations.CodeReadWritesTheCode : Prop :=
  ∀ (s : State) (x : Byte), s.codesValid = true →
    s.dstAddr + ((entry s.codes x).len.toNat + 7) / 8 ≤ s.memBytes → ∃ t, exec (.codeRead x) s = .next t ∧
      (t.mem.readBytes s.dstAddr (((entry s.codes x).len.toNat + 7) / 8)).flatMap bits8
        = (entry s.codes x).code ++
          List.replicate (8 * (((entry s.codes x).len.toNat + 7) / 8) - (entry s.codes x).len.toNat) false ∧
      (∀ a, a < s.dstAddr ∨ s.dstAddr + ((entry s.codes x).len.toNat + 7) / 8 ≤ a →
        t.mem.read a = s.mem.read a) ∧
      t.result.toNat = (if (entry s.codes x).present then 256 else 0) + (entry s.codes x).len.toNat ∧
      t = { s with mem := t.mem, result := t.result, busy := false }

/-! ## ENCODE (42_encode_decode.md section 1) -/

/-- R201, R202, R204: the form of a payload: the groups spell the bits and then zeros, and the trailer is
the number of bits of the last group, 1 to 8. -/
def Obligations.PackForm : Prop :=
  ∀ bits : List Bool, ∃ (groups : List Byte) (t : Byte), pack bits = groups ++ [t] ∧
    groups.length = (bits.length + 7) / 8 ∧
    groups.flatMap bits8 = bits ++ List.replicate (8 * groups.length - bits.length) false ∧
    t.toNat = (if bits.length % 8 = 0 then 8 else bits.length % 8)

/-- R200: an ENCODE whose codes are valid, whose source is in memory, whose bytes all have codes and whose
payload fits apart from the source completes, for a SINGLE or MULTI tree. -/
def Obligations.EncodeWritesThePayload : Prop :=
  ∀ (s : State) (out : List Byte), s.codesValid = true → s.treeState ≠ .empty →
    s.srcAddr + s.srcLen ≤ s.memBytes → (∀ b ∈ s.source, (entry s.codes b).present = true) →
    out = pack (s.source.flatMap fun b => (entry s.codes b).code) →
    s.dstAddr + out.length ≤ s.memBytes →
    (s.srcLen = 0 ∨ s.dstAddr + out.length ≤ s.srcAddr ∨ s.srcAddr + s.srcLen ≤ s.dstAddr) →
    ∃ t, exec .encode s = .next t ∧ t.mem.readBytes s.dstAddr out.length = out ∧
      (∀ a, a < s.dstAddr ∨ s.dstAddr + out.length ≤ a → t.mem.read a = s.mem.read a) ∧
      t.result.toNat = out.length ∧ t = { s with mem := t.mem, result := t.result, busy := false }

/-- R63, R72, R200, R206, R209, R263: the faults of ENCODE in the order checked. With valid codes a source
outside memory is MEM_RANGE with memory unchanged (as it is of DECODE with a tree); else a data byte with no
code is ENC_UNKNOWN_SYMBOL whatever DST is; else a payload that does not fit is MEM_RANGE; else one that meets
the source is OVERLAP. -/
def Obligations.EncodeFaultsInOrder : Prop :=
  (∀ (s : State) (i : Instr),
    (i = .encode ∧ s.codesValid = true) ∨ (i = .decode ∧ s.treeState ≠ .invalid) →
    s.memBytes < s.srcAddr + s.srcLen →
    ∃ t, exec i s = .next t ∧ t = { s with err := some .memRange, busy := false, result := t.result,
                                           faults := s.faults ++ [.memRange], draws := t.draws }) ∧
  ∀ s : State, s.codesValid = true → s.srcAddr + s.srcLen ≤ s.memBytes →
    ((∃ b ∈ s.source, (entry s.codes b).present = false) →
      ∃ t, exec .encode s = .next t ∧ t.err = some .encUnknownSymbol) ∧
    ∀ out : List Byte, s.treeState ≠ .empty → (∀ b ∈ s.source, (entry s.codes b).present = true) →
      out = pack (s.source.flatMap fun b => (entry s.codes b).code) →
      (s.memBytes < s.dstAddr + out.length → ∃ t, exec .encode s = .next t ∧ t.err = some .memRange) ∧
      (s.dstAddr + out.length ≤ s.memBytes → 0 < s.srcLen → s.srcAddr < s.dstAddr + out.length →
        s.dstAddr < s.srcAddr + s.srcLen → ∃ t, exec .encode s = .next t ∧ t.err = some .overlap)

/-- R205, R216: with an EMPTY tree, ENCODE of empty data and DECODE of the empty payload write nothing and
complete with RESULT = 0, or fault MEM_RANGE where DST lies above MEM_BYTES (R63); nonempty data or payload
faults ENC_UNKNOWN_SYMBOL or FMT_NO_TREE, whatever DST is. -/
def Obligations.EmptyTreeCodesOnlyEmptyData : Prop :=
  ∀ (s : State) (i : Instr), s.treeState = .empty → (i = .encode ∧ s.codesValid = true) ∨ i = .decode →
    s.srcAddr + s.srcLen ≤ s.memBytes →
    (s.srcLen = 0 → s.dstAddr ≤ s.memBytes → ∃ t, exec i s = .next t ∧
      (∀ a, t.mem.read a = s.mem.read a) ∧ t = { s with mem := t.mem, result := 0, busy := false }) ∧
    (s.srcLen = 0 → s.memBytes < s.dstAddr → ∃ t, exec i s = .next t ∧ t.err = some .memRange) ∧
    (0 < s.srcLen → ∃ t, exec i s = .next t ∧
      t.err = some (if i = .encode then .encUnknownSymbol else .fmtNoTree))

/-! ## DECODE (42_encode_decode.md section 2) -/

/-- R210, R211: a payload of n ≥ 2 bytes with trailer t has `8(n − 2) + t` meaningful bits, the first of
its data bits; one of the byte 8 alone has none. -/
def Obligations.UnpackTakesTheMeaningfulBits : Prop :=
  (∀ (front : List Byte) (t : Byte), front ≠ [] → 1 ≤ t.toNat → t.toNat ≤ 8 → ∃ bits,
    unpack (front ++ [t]) = .ok bits ∧ bits.length = 8 * (front.length - 1) + t.toNat ∧
      bits <+: front.flatMap bits8) ∧
  unpack [0x08] = .ok [] ∧ ∀ bits, unpack (pack bits) = .ok bits

/-- R217: with a SINGLE or MULTI tree an empty payload is FMT_TRUNCATED, and a trailer outside 1 to 8, or
other than 8 in a payload of one byte, is FMT_TRAILER. -/
def Obligations.DecodeFaultsOnAMalformedTrailer : Prop :=
  ∀ s : State, (s.treeState = .single ∨ s.treeState = .multi) → s.srcAddr + s.srcLen ≤ s.memBytes →
    (s.srcLen = 0 → ∃ t, exec .decode s = .next t ∧ t.err = some .fmtTruncated) ∧
    ∀ (front : List Byte) (last : Byte), s.source = front ++ [last] →
      (last.toNat = 0 ∨ 8 < last.toNat ∨ (front = [] ∧ last.toNat ≠ 8)) →
      ∃ t, exec .decode s = .next t ∧ t.err = some .fmtTrailer

/-- R215, R209: with a SINGLE tree a payload with meaningful bits is FMT_OFF_LEAF, and the payload of the byte
8 gives the symbol as many times as its count: MEM_RANGE where that does not fit at DST, else OVERLAP where it
meets the payload (R72, R263), else written. -/
def Obligations.DecodeWithASingleSymbol : Prop :=
  ∀ (s : State) (x : Byte), s.InvAtIssue → s.treeState = .single → entry s.freq x ≠ 0 →
    s.srcAddr + s.srcLen ≤ s.memBytes →
    (∀ bits, unpack s.source = .ok bits → bits ≠ [] → ∃ t, exec .decode s = .next t ∧ t.err = some .fmtOffLeaf) ∧
    (s.source = [0x08] →
      (s.memBytes < s.dstAddr + (entry s.freq x).toNat →
        ∃ t, exec .decode s = .next t ∧ t.err = some .memRange) ∧
      (s.dstAddr + (entry s.freq x).toNat ≤ s.memBytes → s.srcAddr < s.dstAddr + (entry s.freq x).toNat →
        s.dstAddr < s.srcAddr + s.srcLen → ∃ t, exec .decode s = .next t ∧ t.err = some .overlap) ∧
      (s.dstAddr + (entry s.freq x).toNat ≤ s.memBytes →
        (s.dstAddr + (entry s.freq x).toNat ≤ s.srcAddr ∨ s.srcAddr + s.srcLen ≤ s.dstAddr) →
        ∃ t, exec .decode s = .next t ∧
          t.mem.readBytes s.dstAddr (entry s.freq x).toNat = List.replicate (entry s.freq x).toNat x ∧
          (∀ a, a < s.dstAddr ∨ s.dstAddr + (entry s.freq x).toNat ≤ a → t.mem.read a = s.mem.read a) ∧
          t = { s with mem := t.mem, result := entry s.freq x, busy := false }))

/-- R214: with a MULTI tree, meaningful bits that end inside a code are FMT_MID_TRAVERSAL. The codes are those
that GEN_CODES derives from the tree, whether or not it has run. -/
def Obligations.DecodeFaultsMidTraversal : Prop :=
  ∀ (s g : State) (data : List Byte) (x : Byte) (part rest : List Bool), s.InvAtIssue → s.treeState = .multi →
    exec .genCodes s = .next g → s.srcAddr + s.srcLen ≤ s.memBytes →
    (∀ b ∈ x :: data, (entry g.codes b).present = true) → (entry g.codes x).code = part ++ rest →
    part ≠ [] → rest ≠ [] →
    unpack s.source = .ok ((data.flatMap fun b => (entry g.codes b).code) ++ part) →
    ∃ t, exec .decode s = .next t ∧ t.err = some .fmtMidTraversal

/-- R213, R219, R209: with a MULTI tree, meaningful bits that spell codes decode to their symbols, however many
they are: MEM_RANGE where those do not fit at DST, else OVERLAP where they meet the payload (R72, R263), else
written. The codes are those that GEN_CODES derives from the tree, whether or not it has run. -/
def Obligations.DecodeWritesTheSymbolsOfTheCodes : Prop :=
  ∀ (s g : State) (data : List Byte), s.InvAtIssue → s.treeState = .multi → exec .genCodes s = .next g →
    s.srcAddr + s.srcLen ≤ s.memBytes → (∀ b ∈ data, (entry g.codes b).present = true) →
    unpack s.source = .ok (data.flatMap fun b => (entry g.codes b).code) →
    (s.memBytes < s.dstAddr + data.length → ∃ t, exec .decode s = .next t ∧ t.err = some .memRange) ∧
    (s.dstAddr + data.length ≤ s.memBytes → data ≠ [] → s.srcAddr < s.dstAddr + data.length →
      s.dstAddr < s.srcAddr + s.srcLen → ∃ t, exec .decode s = .next t ∧ t.err = some .overlap) ∧
    (s.dstAddr + data.length ≤ s.memBytes →
      (data = [] ∨ s.dstAddr + data.length ≤ s.srcAddr ∨ s.srcAddr + s.srcLen ≤ s.dstAddr) →
      ∃ t, exec .decode s = .next t ∧ t.mem.readBytes s.dstAddr data.length = data ∧
        (∀ a, a < s.dstAddr ∨ s.dstAddr + data.length ≤ a → t.mem.read a = s.mem.read a) ∧
        t.result.toNat = data.length ∧ t = { s with mem := t.mem, result := t.result, busy := false })

/-- R218: two payloads that differ only in the padding of the last data byte have the same meaningful bits,
and DECODE gives the same ERR with both and, where it does not fault, the same RESULT and output. -/
def Obligations.DecodeIgnoresThePadding : Prop :=
  ∀ (front : List Byte) (b b' t : Byte), 1 ≤ t.toNat → t.toNat ≤ 8 →
    (∀ i, 8 - t.toNat ≤ i → b.getLsbD i = b'.getLsbD i) →
    unpack (front ++ [b, t]) = unpack (front ++ [b', t]) ∧
    ∀ s u : State, s.InvAtIssue → s.source = front ++ [b, t] → u = { s with mem := u.mem } →
      u.source = front ++ [b', t] →
      ∃ r c, exec .decode s = .next r ∧ exec .decode u = .next c ∧ r.err = c.err ∧
        (r.err = none → r.result = c.result ∧
          ∀ a, s.dstAddr ≤ a → a < s.dstAddr + r.result.toNat → r.mem.read a = c.mem.read a)

/-- R222, case 1: what ENCODE made of data with a MULTI tree, DECODE turns back into the data, in any state
whose tree is current for the same frequency table. -/
def Obligations.EncodeThenDecodeGivesTheDataBack : Prop :=
  ∀ s t u : State, s.InvAtIssue → s.treeState = .multi → s.err = none → exec .encode s = .next t →
    t.err = none →
    u.InvAtIssue → u.treeState ≠ .invalid → u.freq = s.freq →
    u.source = t.mem.readBytes s.dstAddr t.result.toNat → u.srcAddr + u.srcLen ≤ u.memBytes →
    u.dstAddr + s.srcLen ≤ u.memBytes →
    (s.srcLen = 0 ∨ u.dstAddr + s.srcLen ≤ u.srcAddr ∨ u.srcAddr + u.srcLen ≤ u.dstAddr) →
    ∃ v, exec .decode u = .next v ∧ v.result = s.len ∧ v.mem.readBytes u.dstAddr s.srcLen = s.source ∧
      v.err = u.err

/-- R208, R222, case 2: with a SINGLE tree ENCODE of any number of the symbol writes the byte 8, which
decodes to as many of the symbol as its count. -/
def Obligations.EncodeOfASingleSymbolCarriesNoCount : Prop :=
  ∀ (s : State) (x : Byte), s.InvAtIssue → s.treeState = .single → s.codesValid = true → entry s.freq x ≠ 0 →
    (∀ b ∈ s.source, b = x) → s.srcAddr + s.srcLen ≤ s.memBytes → s.dstAddr + 1 ≤ s.memBytes →
    (s.srcLen = 0 ∨ s.dstAddr + 1 ≤ s.srcAddr ∨ s.srcAddr + s.srcLen ≤ s.dstAddr) →
    ∃ t, exec .encode s = .next t ∧ t.mem.read s.dstAddr = 0x08 ∧
      (∀ a, a ≠ s.dstAddr → t.mem.read a = s.mem.read a) ∧
      t = { s with mem := t.mem, result := 1, busy := false }

/-! ## The whole machine -/

/-- R22, R23: no command writes the operand registers, the parameters, or the host's side. -/
def Obligations.NoCommandWritesTheOperandRegisters : Prop :=
  ∀ (i : Instr) (s t : State), exec i s = .next t →
    t.src = s.src ∧ t.len = s.len ∧ t.dst = s.dst ∧ t.params = s.params ∧ t.program = s.program ∧
      t.seen = s.seen

/-- R33, R93: which commands write the tree state, CODES_VALID, FREQ, the tree and the code table. -/
def Obligations.WhichCommandsWriteWhat : Prop :=
  ∀ (i : Instr) (s t : State), exec i s = .next t →
    (i ∉ ([.freqClear, .freqCount, .freqLoad] : List Instr) → t.freq = s.freq) ∧
    (i ∉ ([.freqClear, .freqCount, .freqLoad, .buildTree] : List Instr) → t.treeState = s.treeState) ∧
    (i ∉ ([.freqClear, .freqCount, .freqLoad, .buildTree, .genCodes] : List Instr) →
      t.codesValid = s.codesValid) ∧
    (i ≠ .buildTree → t.tree = s.tree) ∧ (i ≠ .genCodes → t.codes = s.codes) ∧
    (t.freq ≠ s.freq → t.treeState = .invalid ∧ t.codesValid = false)

/-- R77: a command without a fault changes no byte outside the ones it stores at DST: none but for
FREQ_STORE, ENCODE and DECODE, which store RESULT bytes, and CODE_READ, which stores ceil(LEN / 8). -/
def Obligations.CommandsStoreOnlyTheirOutput : Prop :=
  ∀ (i : Instr) (s t : State), s.err = none → exec i s = .next t → t.err = none →
    ∀ m, m = (match i with
      | .freqStore | .encode | .decode => t.result.toNat
      | .codeRead x => ((entry s.codes x).len.toNat + 7) / 8
      | _ => 0) →
    ∀ a, ¬ (s.dstAddr ≤ a ∧ a < s.dstAddr + m) → t.mem.read a = s.mem.read a

/-- R44, R300: the machine right after reset meets the invariant, whatever its parameters (R10) and the draw
its memory takes. -/
def Obligations.ResetMeetsTheInvariant : Prop :=
  ∀ (p : Params) (k : Nat), p.wf → (State.resetWith p k).Inv

/-- R30, R31, R26, R29: every step keeps the invariant: the canonical form of memory and its bounds, BUSY
= 0, CODES_VALID ⇒ a tree, and that the tree and the codes are those of the current table. -/
def Obligations.StepKeepsTheInvariant : Prop :=
  ∀ s t : State, s.Inv → step s = .next t → t.Inv

/-- R213, R173, R330: from a state that meets the invariant no step stops with a fault of the machine, and
the one refusal is a host access outside memory (X8). -/
def Obligations.InvariantMachineNeverStops : Prop :=
  ∀ s : State, s.Inv → (∃ t, step s = .next t) ∨
    (step s = .refused .hostOutsideMemory ∧ ∃ a, (∃ bytes, s.program.head? = some (.memw a bytes)) ∨
      ∃ n, s.program.head? = some (.memr a n))
end

