-- ==== Sys2Proof/Laws/Bits.lean ====
section
/-!
SUPPORT. The laws of bits and bytes: groups and their bits, big-endian counts, and that Unpack inverts
Pack (R201, R210, R211).
-/

namespace Sys2Proof.Machine

theorem bits8_length (b : Byte) : (bits8 b).length = 8 := rfl

/-- A byte formed from at most 8 bits spells those bits, then the zero padding (R65, R204). -/
theorem bits8_byteOfBits (l : List Bool) (h : l.length ≤ 8) :
    bits8 (byteOfBits l) = l ++ List.replicate (8 - l.length) false := by
  match l with
  | [] => decide
  | [a] => revert a; decide +kernel
  | [a, b] => revert a b; decide +kernel
  | [a, b, c] => revert a b c; decide +kernel
  | [a, b, c, d] => revert a b c d; decide +kernel
  | [a, b, c, d, e] => revert a b c d e; decide +kernel
  | [a, b, c, d, e, f] => revert a b c d e f; decide +kernel
  | [a, b, c, d, e, f, g] => revert a b c d e f g; decide +kernel
  | [a, b, c, d, e, f, g, i] => revert a b c d e f g i; decide +kernel
  | _ :: _ :: _ :: _ :: _ :: _ :: _ :: _ :: _ :: _ => simp at h; omega

@[simp] theorem packGroups_length (g : Nat) (l : List Bool) : (packGroups g l).length = g := by
  induction g generalizing l with
  | zero => rfl
  | succ g ih => simp [packGroups, ih]

/-- The groups of a bit sequence spell the sequence, then the zero padding (R201, R204). -/
theorem packGroups_bits (g : Nat) (l : List Bool) (h : l.length ≤ 8 * g) :
    (packGroups g l).flatMap bits8 = l ++ List.replicate (8 * g - l.length) false := by
  induction g generalizing l with
  | zero =>
    have : l = [] := List.length_eq_zero_iff.1 (by omega)
    subst this; rfl
  | succ g ih =>
    rw [packGroups, List.flatMap_cons, ih _ (by rw [List.length_drop]; omega),
      bits8_byteOfBits _ (by rw [List.length_take]; omega)]
    by_cases h8 : 8 ≤ l.length
    · have h1 : 8 - (l.take 8).length = 0 := by rw [List.length_take]; omega
      have h2 : 8 * g - (l.drop 8).length = 8 * (g + 1) - l.length := by rw [List.length_drop]; omega
      rw [h1, h2, List.replicate_zero, List.append_nil, ← List.append_assoc, List.take_append_drop]
    · have h1 : l.drop 8 = [] := List.drop_eq_nil_of_le (by omega)
      have h2 : l.take 8 = l := List.take_of_length_le (by omega)
      rw [h1, h2, List.nil_append, List.length_nil, List.append_assoc, List.replicate_append_replicate]
      congr 2; omega

theorem le_groupsFor (n : Nat) : n ≤ 8 * groupsFor n := by unfold groupsFor; omega

/-- The payload has `ceil(L / 8) + 1` bytes (R201). -/
theorem pack_length (l : List Bool) : (pack l).length = groupsFor l.length + 1 := by simp [pack]

/-- The trailer is 1 to 8 (R202). -/
theorem trailer_toNat (n : Nat) : (trailer n).toNat = if n % 8 = 0 then 8 else n % 8 := by
  unfold trailer
  rw [BitVec.toNat_ofNat]
  apply Nat.mod_eq_of_lt
  split <;> omega

/-- `Unpack(Pack(S)) = S` (R211). -/
theorem unpack_pack (l : List Bool) : unpack (pack l) = .ok l := by
  have ht := trailer_toNat l.length
  have hg : (pack l).getLast? = some (trailer l.length) := by simp [pack]
  have hd : (pack l).dropLast = packGroups (groupsFor l.length) l := by simp [pack]
  have h18 : ¬ ((trailer l.length).toNat < 1 ∨ 8 < (trailer l.length).toNat) := by
    rw [ht]; split <;> omega
  unfold unpack
  rw [hg]
  simp only [h18, if_false, hd, pack_length]
  by_cases h0 : l.length = 0
  · have : l = [] := List.length_eq_zero_iff.1 h0
    subst this; rfl
  · have h1 : ¬ (groupsFor l.length + 1 = 1) := by unfold groupsFor; omega
    rw [if_neg h1, packGroups_bits _ _ (le_groupsFor _)]
    have hlen : 8 * (groupsFor l.length + 1 - 2) + (trailer l.length).toNat = l.length := by
      rw [ht]; unfold groupsFor; split <;> omega
    rw [hlen, List.take_left]

/-! ## Big-endian counts -/

/-- Reading back a serialized count (R64). -/
theorem ofBe32_be32 (n : Word) : ofBe32 (n.extractLsb' 24 8) (n.extractLsb' 16 8) (n.extractLsb' 8 8)
    (n.extractLsb' 0 8) = n := by
  apply BitVec.eq_of_getLsbD_eq
  intro i hi
  simp only [ofBe32, BitVec.getLsbD_append, BitVec.getLsbD_extractLsb']
  by_cases h1 : i < 8
  · simp [h1]
  · by_cases h2 : i - 8 < 8
    · simp [h1, h2, show 8 + (i - 8) = i by omega]
    · by_cases h3 : i - 8 - 8 < 8
      · simp [h1, h2, h3, show 16 + (i - 8 - 8) = i by omega]
      · simp [h1, h2, h3, show i - 8 - 8 - 8 < 8 by omega, show 24 + (i - 8 - 8 - 8) = i by omega]

/-- Serializing back a count that was read (R64). -/
theorem be32_ofBe32 (b1 b2 b3 b4 : Byte) : be32 (ofBe32 b1 b2 b3 b4) = [b1, b2, b3, b4] := by
  have h : ∀ (k : Nat) (b : Byte), (∀ i, i < 8 → (ofBe32 b1 b2 b3 b4).getLsbD (k + i) = b.getLsbD i) →
      (ofBe32 b1 b2 b3 b4).extractLsb' k 8 = b := by
    intro k b hb
    apply BitVec.eq_of_getLsbD_eq
    intro i hi
    simp [hi, hb i hi]
  unfold be32
  rw [h 24 b1, h 16 b2, h 8 b3, h 0 b4] <;> intro i hi <;>
    simp only [ofBe32, BitVec.getLsbD_append]
  · simp [hi]
  · simp [hi, show ¬ 8 + i < 8 by omega]
  · simp [hi, show ¬ 16 + i < 8 by omega, show 16 + i - 8 - 8 = i by omega, show ¬ 16 + i - 8 < 8 by omega]
  · simp [hi, show ¬ 24 + i < 8 by omega, show 24 + i - 8 - 8 - 8 = i by omega, show ¬ 24 + i - 8 < 8 by omega,
      show ¬ 24 + i - 8 - 8 < 8 by omega]

end Sys2Proof.Machine
end

