-- ==== Sys2Proof/Laws/Tables.lean ====
section
/-!
SUPPORT. The laws of the 256-entry tables, of the symbols present, and of counting.
-/

namespace Sys2Proof.Machine

theorem entry_setEntry {α : Type} (t : Vector α numSymbols) (s u : Byte) (e : α) :
    entry (setEntry t s e) u = if u = s then e else entry t u := by
  unfold entry setEntry
  rw [Vector.getElem_set]
  by_cases h : u = s
  · simp [h]
  · have : s.toNat ≠ u.toNat := fun h' => h (BitVec.eq_of_toNat_eq h'.symm)
    simp [h, this]

@[simp] theorem entry_setEntry_self {α : Type} (t : Vector α numSymbols) (s : Byte) (e : α) :
    entry (setEntry t s e) s = e := by simp [entry_setEntry]

@[simp] theorem allSymbols_getElem (i : Nat) (h : i < allSymbols.length) :
    allSymbols[i] = BitVec.ofNat 8 i := by simp [allSymbols]

theorem mem_allSymbols (s : Byte) : s ∈ allSymbols := by
  refine List.mem_iff_getElem.2 ⟨s.toNat, by rw [allSymbols_length]; exact s.isLt, ?_⟩
  simp

@[simp] theorem entry_tabulate {α : Type} (f : Byte → α) (s : Byte) : entry (tabulate f) s = f s := by
  simp [entry, tabulate]

@[simp] theorem entry_replicate {α : Type} (a : α) (s : Byte) :
    entry (Vector.replicate numSymbols a) s = a := by simp [entry]

@[simp] theorem entry_freqZero (s : Byte) : entry FreqTable.zero s = 0 := by simp [FreqTable.zero]

@[simp] theorem entry_codesAbsent (s : Byte) : entry CodeTable.absent s = .absent := by simp [CodeTable.absent]

/-- Two tables with the same entries are the same table. -/
theorem table_ext {α : Type} {t u : Vector α numSymbols} (h : ∀ s, entry t s = entry u s) : t = u := by
  apply Vector.ext
  intro i hi
  have := h (BitVec.ofNat 8 i)
  simpa [entry, Nat.mod_eq_of_lt hi] using this

/-- The table is its symbols' entries in order. -/
theorem toList_eq_map_entry {α : Type} (t : Vector α numSymbols) : t.toList = allSymbols.map (entry t) := by
  apply List.ext_getElem (by simp [allSymbols_length])
  intro i h1 h2
  have hi : i < 256 := by simpa using h1
  simp [entry, Nat.mod_eq_of_lt hi]

/-! ## The symbols present -/

theorem present_eq (f : FreqTable) :
    present f = (allSymbols.filter (fun s => 0 < (entry f s).toNat)).map (fun s => (s, entry f s)) := by
  have h : ∀ l : List Byte, (l.zip (l.map (entry f))).filter (fun p => decide (0 < p.2.toNat))
      = (l.filter (fun s => decide (0 < (entry f s).toNat))).map (fun s => (s, entry f s)) := by
    intro l
    induction l with
    | nil => rfl
    | cons s l ih =>
      by_cases hs : 0 < (entry f s).toNat <;> simp [hs, ih]
  unfold present
  rw [toList_eq_map_entry]
  exact h _

/-- A symbol is present with exactly its count, which is not 0 (R35). -/
theorem mem_present {f : FreqTable} {p : Byte × Word} :
    p ∈ present f ↔ p.2 = entry f p.1 ∧ 0 < p.2.toNat := by
  rw [present_eq]
  simp only [List.mem_map, List.mem_filter, mem_allSymbols, true_and, decide_eq_true_eq]
  constructor
  · rintro ⟨s, hs, rfl⟩; exact ⟨rfl, hs⟩
  · rintro ⟨h1, h2⟩; exact ⟨p.1, h1 ▸ h2, Prod.ext rfl h1.symm⟩

theorem allSymbols_pairwise : allSymbols.Pairwise (fun a b => a.toNat < b.toNat) := by
  rw [List.pairwise_iff_getElem]
  intro i j hi hj hij
  have h1 : i < 256 := by simpa [allSymbols_length] using hi
  have h2 : j < 256 := by simpa [allSymbols_length] using hj
  simp [Nat.mod_eq_of_lt h1, Nat.mod_eq_of_lt h2, hij]

/-- The symbols present are listed in strictly ascending order (R35, R39, R130). -/
theorem present_pairwise (f : FreqTable) : (present f).Pairwise (fun p q => p.1.toNat < q.1.toNat) := by
  rw [present_eq, List.pairwise_map]
  exact allSymbols_pairwise.filter _

theorem present_length_le (f : FreqTable) : (present f).length ≤ 256 := by
  rw [present_eq, List.length_map]
  exact (List.length_filter_le _ _).trans (by simp [allSymbols_length])

theorem present_nodup (f : FreqTable) : ((present f).map Prod.fst).Nodup := by
  rw [List.nodup_iff_pairwise_ne, List.pairwise_map]
  exact (present_pairwise f).imp (fun h h' => by rw [h'] at h; omega)

/-! ## Counting -/

/-- After counting, each entry is the number of its symbol's occurrences (R125). -/
theorem entry_countTable (data : List Byte) (hn : data.length < 2 ^ 32) (s : Byte) :
    (entry (countTable data) s).toNat = data.count s := by
  have h : ∀ (l : List Byte) (f : FreqTable),
      entry (l.foldl (fun f b => setEntry f b (entry f b + 1)) f) s = entry f s + BitVec.ofNat 32 (l.count s) := by
    intro l
    induction l with
    | nil => intro f; simp
    | cons b l ih =>
      intro f
      rw [List.foldl_cons, ih, entry_setEntry, List.count_cons]
      by_cases hb : s = b
      · subst hb
        simp only [if_true, beq_self_eq_true, BitVec.ofNat_add, BitVec.ofNat_eq_ofNat]
        ac_rfl
      · have : ¬ b = s := fun h => hb h.symm
        simp [hb, this]
  unfold countTable
  rw [h]
  have : data.count s ≤ data.length := List.count_le_length
  simp only [entry_freqZero, BitVec.ofNat_eq_ofNat, BitVec.zero_add, BitVec.toNat_ofNat]
  exact Nat.mod_eq_of_lt (by omega)

end Sys2Proof.Machine
end

