-- ==== Sys2Proof/Laws/Tree.lean ====
section
/-!
SUPPORT. The tree that BUILD_TREE makes, as a tree: what node array holds it, that the merges make one
tree over exactly the symbols present, and that no weight overflows (R160 to R171).
-/

namespace Sys2Proof.Machine

/-- A strict binary tree over (symbol, count) leaves: what the node array stands for. -/
inductive HTree where
  | leaf (sym : Byte) (count : Nat)
  | node (left right : HTree)

/-- The leaves, left to right. -/
def HTree.leaves : HTree → List (Byte × Nat)
  | .leaf s c => [(s, c)]
  | .node l r => l.leaves ++ r.leaves

/-- The sum of the counts of the leaves. -/
def HTree.weight : HTree → Nat
  | .leaf _ c => c
  | .node l r => l.weight + r.weight

/-- The least symbol of the leaves (R17, discriminator). -/
def HTree.minSym : HTree → Nat
  | .leaf s _ => s.toNat
  | .node l r => min l.minSym r.minSym

/-- The number of nodes. -/
def HTree.size : HTree → Nat
  | .leaf _ _ => 1
  | .node l r => l.size + r.size + 1

/-- The leaves' symbols with their paths from the root, false for a left edge (R173). -/
def HTree.paths : HTree → List (Byte × List Bool)
  | .leaf s _ => [(s, [])]
  | .node l r =>
    l.paths.map (fun p => (p.1, false :: p.2)) ++ r.paths.map (fun p => (p.1, true :: p.2))

/-- The node array holds the tree at an index, children below their parents (R37, R165). -/
def Holds (nodes : Vector Node maxNodes) : NodeIndex → HTree → Prop
  | i, .leaf s c => ∃ w : Weight, nodes[i] = .leaf s w s ∧ w.toNat = c
  | i, .node l r => ∃ (w : Weight) (d : Byte) (li ri : NodeIndex), nodes[i] = .internal w d li ri ∧
      w.toNat = l.weight + r.weight ∧ d.toNat = min l.minSym r.minSym ∧
      li.val < i.val ∧ ri.val < i.val ∧ Holds nodes li l ∧ Holds nodes ri r

theorem HTree.size_eq (t : HTree) : t.size + 1 = 2 * t.leaves.length := by
  induction t with
  | leaf => rfl
  | node l r hl hr => simp only [size, leaves, List.length_append]; omega

theorem HTree.leaves_pos (t : HTree) : 0 < t.leaves.length := by
  induction t with
  | leaf => simp [leaves]
  | node l r hl hr => simp only [leaves, List.length_append]; omega

theorem HTree.weight_eq_sum (t : HTree) : t.weight = (t.leaves.map Prod.snd).sum := by
  induction t with
  | leaf => simp [weight, leaves]
  | node l r hl hr => simp [weight, leaves, hl, hr]

theorem HTree.minSym_mem (t : HTree) : t.minSym ∈ t.leaves.map (fun p => p.1.toNat) := by
  induction t with
  | leaf => simp [minSym, leaves]
  | node l r hl hr =>
    simp only [minSym, leaves, List.map_append, List.mem_append]
    rcases Nat.le_total l.minSym r.minSym with h | h
    · exact .inl (by rwa [Nat.min_eq_left h])
    · exact .inr (by rwa [Nat.min_eq_right h])

theorem HTree.paths_fst (t : HTree) : t.paths.map Prod.fst = t.leaves.map Prod.fst := by
  induction t with
  | leaf => rfl
  | node l r hl hr => simp [paths, leaves, ← hl, ← hr, Function.comp_def]

theorem Holds.weight {nodes : Vector Node maxNodes} {i : NodeIndex} {t : HTree} (h : Holds nodes i t) :
    nodes[i].weight.toNat = t.weight := by
  cases t with
  | leaf s c => obtain ⟨w, h1, h2⟩ := h; rw [h1]; exact h2
  | node l r => obtain ⟨w, d, li, ri, h1, h2, -⟩ := h; rw [h1]; exact h2

theorem Holds.disc {nodes : Vector Node maxNodes} {i : NodeIndex} {t : HTree} (h : Holds nodes i t) :
    nodes[i].disc.toNat = t.minSym := by
  cases t with
  | leaf s c => obtain ⟨w, h1, h2⟩ := h; rw [h1]; rfl
  | node l r => obtain ⟨w, d, li, ri, h1, -, h2, -⟩ := h; rw [h1]; exact h2

/-- A write above the tree does not touch it. -/
theorem Holds.set {nodes : Vector Node maxNodes} {t : HTree} {i j : NodeIndex} (n : Node)
    (h : Holds nodes i t) (hij : i.val < j.val) : Holds (nodes.set j n) i t := by
  have hne : ∀ x : NodeIndex, x.val < j.val → (nodes.set j n)[x] = nodes[x] := fun x hx =>
    Vector.getElem_set_ne _ _ (by omega)
  induction t generalizing i with
  | leaf s c => obtain ⟨w, h1, h2⟩ := h; exact ⟨w, by rw [hne i hij]; exact h1, h2⟩
  | node l r hl hr =>
    obtain ⟨w, d, li, ri, h1, h2, h3, h4, h5, h6, h7⟩ := h
    exact ⟨w, d, li, ri, by rw [hne i hij]; exact h1, h2, h3, h4, h5, hl h6 (by omega) hne, hr h7 (by omega) hne⟩

/-! ## Popping the least key -/

/-- What popping does: it takes one element off the queue (R160). -/
theorem popLeast_perm {nodes : Vector Node maxNodes} {q rest : List NodeIndex} {i : NodeIndex}
    (h : popLeast nodes q = some (i, rest)) : q.Perm (i :: rest) := by
  induction q generalizing i rest with
  | nil => simp [popLeast] at h
  | cons a q ih =>
    rw [popLeast] at h
    cases hp : popLeast nodes q with
    | none =>
      rw [hp] at h
      cases q with
      | nil => simp only [Option.some.injEq, Prod.mk.injEq] at h; obtain ⟨rfl, rfl⟩ := h; exact List.Perm.refl _
      | cons b q => simp only [popLeast] at hp; split at hp <;> (try split at hp) <;> cases hp
    | some p =>
      obtain ⟨j, q'⟩ := p
      rw [hp] at h
      simp only at h
      split at h
      · simp only [Option.some.injEq, Prod.mk.injEq] at h
        obtain ⟨rfl, rfl⟩ := h
        exact (List.Perm.cons a (ih hp)).trans (List.Perm.swap _ _ _)
      · simp only [Option.some.injEq, Prod.mk.injEq] at h
        obtain ⟨rfl, rfl⟩ := h
        exact List.Perm.refl _

theorem popLeast_cons_isSome (nodes : Vector Node maxNodes) (a : NodeIndex) (q : List NodeIndex) :
    ∃ i rest, popLeast nodes (a :: q) = some (i, rest) := by
  simp only [popLeast]
  split
  · exact ⟨_, _, rfl⟩
  · split <;> exact ⟨_, _, rfl⟩

/-! ## The merges -/

/-- The (symbol, count) pairs of the symbols present. -/
def leafPairs (f : FreqTable) : List (Byte × Nat) := (present f).map (fun p => (p.1, p.2.toNat))

/-- The sum of all counts is below 2^40 (R165). -/
theorem leafPairs_sum_lt (f : FreqTable) : ((leafPairs f).map Prod.snd).sum < 2 ^ 40 := by
  have h1 : ∀ l : List (Byte × Word), ((l.map (fun p => (p.1, p.2.toNat))).map Prod.snd).sum
      ≤ l.length * (2 ^ 32 - 1) := by
    intro l
    induction l with
    | nil => simp
    | cons p l ih =>
      have := p.2.isLt
      simp only [List.map_cons, List.sum_cons, List.length_cons, Nat.add_mul]
      omega
  have h2 := present_length_le f
  have := h1 (present f)
  unfold leafPairs
  calc _ ≤ _ := this
    _ ≤ 256 * (2 ^ 32 - 1) := Nat.mul_le_mul_right _ h2
    _ < _ := by norm_num

/-- A queue of disjoint trees over the leaves `L`, of `k` leaves in all, held by the nodes below `next`. -/
structure Forest (k : Nat) (L : List (Byte × Nat)) (b : Build) : Prop where
  trees : ∃ T : NodeIndex → HTree, (∀ i ∈ b.queue, Holds b.nodes i (T i) ∧ i.val < b.next) ∧
    (b.queue.flatMap (fun i => (T i).leaves)).Perm L
  nodup : b.queue.Nodup
  count : b.next + b.queue.length = 2 * k

/-- One merge of a queue of at least two trees: one tree fewer, and the new one first. -/
theorem Forest.mergeStep {k : Nat} {L : List (Byte × Nat)} {b : Build} (h : Forest k L b) (hk : k ≤ 256)
    (hL : (L.map Prod.snd).sum < 2 ^ 40) (h2 : 2 ≤ b.queue.length) :
    Forest k L b.mergeStep ∧ b.mergeStep.queue.length + 1 = b.queue.length ∧
      b.mergeStep.next = b.next + 1 ∧ b.mergeStep.queue.head? = some (Fin.ofNat maxNodes b.next) := by
  obtain ⟨⟨T, hT, hperm⟩, hnd, hc⟩ := h
  have hnext : b.next < maxNodes := by show b.next < 511; omega
  obtain ⟨l, q, hl⟩ : ∃ l q, popLeast b.nodes b.queue = some (l, q) := by
    match hq : b.queue with
    | [] => simp [hq] at h2
    | a :: q => exact popLeast_cons_isSome _ _ _
  have p1 := popLeast_perm hl
  have hqlen : q.length + 1 = b.queue.length := by simpa using p1.length_eq.symm
  obtain ⟨r, rest, hr⟩ : ∃ r rest, popLeast b.nodes q = some (r, rest) := by
    match hq : q with
    | [] => simp at hqlen; omega
    | a :: q => exact popLeast_cons_isSome _ _ _
  have p2 := popLeast_perm hr
  have p3 : b.queue.Perm (l :: r :: rest) := p1.trans (p2.cons l)
  have hrlen : rest.length + 1 = q.length := by simpa using p2.length_eq.symm
  have hstep : b.mergeStep = Build.mk (b.nodes.set (Fin.ofNat maxNodes b.next) (mergeNode b.nodes l r))
      (Fin.ofNat maxNodes b.next :: rest) (b.next + 1) := by
    simp [Build.mergeStep, hl, hr]
  have hval : (Fin.ofNat maxNodes b.next).val = b.next := by simp [Fin.ofNat, Nat.mod_eq_of_lt hnext]
  obtain ⟨Hl, ll⟩ := hT l (p3.mem_iff.2 (by simp))
  obtain ⟨Hr, lr⟩ := hT r (p3.mem_iff.2 (by simp))
  have hrest : ∀ i ∈ rest, Holds b.nodes i (T i) ∧ i.val < b.next := fun i hi =>
    hT i (p3.mem_iff.2 (by simp [hi]))
  have hnotin : ∀ i ∈ rest, i ≠ Fin.ofNat maxNodes b.next := fun i hi he => by
    have := (hrest i hi).2; rw [he, hval] at this; omega
  have hperm' : ((T l).leaves ++ ((T r).leaves ++ rest.flatMap (fun i => (T i).leaves))).Perm L := by
    simpa using (p3.flatMap_right (fun i => (T i).leaves)).symm.trans hperm
  have hsum : (T l).weight + (T r).weight < 2 ^ 40 := by
    have := ((hperm'.map Prod.snd).sum_eq)
    rw [HTree.weight_eq_sum, HTree.weight_eq_sum]
    simp only [List.map_append, List.sum_append] at this
    omega
  rw [hstep]
  refine ⟨⟨⟨fun i => if i = Fin.ofNat maxNodes b.next then .node (T l) (T r) else T i, ?_, ?_⟩, ?_, ?_⟩, ?_, rfl, rfl⟩
  · intro i hi
    rcases List.mem_cons.1 hi with rfl | hi
    · refine ⟨?_, by simp only; omega⟩
      simp only [if_true]
      have hs := Hl.set (mergeNode b.nodes l r) (j := Fin.ofNat maxNodes b.next) (by omega)
      have hs' := Hr.set (mergeNode b.nodes l r) (j := Fin.ofNat maxNodes b.next) (by omega)
      refine ⟨_, _, l, r, Vector.getElem_set_self _, ?_, ?_, by omega, by omega, hs, hs'⟩
      · rw [BitVec.toNat_add, Hl.weight, Hr.weight, Nat.mod_eq_of_lt hsum]
      · rw [← Hl.disc, ← Hr.disc]
        split
        · rw [Nat.min_eq_left ‹_›]
        · rw [Nat.min_eq_right (by omega)]
    · obtain ⟨H, lt⟩ := hrest i hi
      refine ⟨?_, by simp only; omega⟩
      simp only [hnotin i hi, if_false]
      exact H.set _ (by omega)
  · have : rest.flatMap (fun i => (if i = Fin.ofNat maxNodes b.next then HTree.node (T l) (T r) else T i).leaves)
        = rest.flatMap (fun i => (T i).leaves) := by
      simp only [List.flatMap]
      congr 1
      exact List.map_congr_left fun i hi => by rw [if_neg (hnotin i hi)]
    simp only [List.flatMap_cons, if_true, this, HTree.leaves, List.append_assoc]
    exact hperm'
  · have := (p3.nodup_iff).1 hnd
    simp only [List.nodup_cons, List.mem_cons, not_or] at this
    exact List.nodup_cons.2 ⟨fun hm => hnotin _ hm rfl, this.2.2⟩
  · simp only [List.length_cons]; omega
  · simp only [List.length_cons]; omega

/-- `n` merges of a queue of more than `n` trees. -/
theorem Forest.mergeAll {k : Nat} {L : List (Byte × Nat)} (hk : k ≤ 256) (hL : (L.map Prod.snd).sum < 2 ^ 40)
    (n : Nat) : ∀ {b : Build}, Forest k L b → n < b.queue.length →
      Forest k L (b.mergeAll n) ∧ (b.mergeAll n).queue.length + n = b.queue.length ∧
        (b.mergeAll n).next = b.next + n := by
  induction n with
  | zero => intro b h _; exact ⟨h, rfl, rfl⟩
  | succ n ih =>
    intro b h hn
    obtain ⟨h1, h2, h3, -⟩ := h.mergeStep hk hL (by omega)
    obtain ⟨g1, g2, g3⟩ := ih h1 (by omega)
    simp only [Build.mergeAll]
    exact ⟨g1, by omega, by omega⟩

theorem Build.mergeAll_succ (n : Nat) (b : Build) : b.mergeAll (n + 1) = (b.mergeAll n).mergeStep := by
  induction n generalizing b with
  | zero => rfl
  | succ n ih => rw [Build.mergeAll, ih, Build.mergeAll]

/-! ## The leaves -/

theorem placeLeaves_getElem (P : List (Byte × Word)) : ∀ (i : Nat) (nodes : Vector Node maxNodes),
    i + P.length ≤ maxNodes → ∀ j : NodeIndex,
      (placeLeaves P i nodes)[j] =
        if h : i ≤ j.val ∧ j.val < i + P.length then leafOf P[j.val - i] else nodes[j] := by
  induction P with
  | nil =>
    intro i nodes _ j
    have : ¬ (i ≤ j.val ∧ j.val < i + ([] : List (Byte × Word)).length) := by
      rw [List.length_nil]; omega
    rw [dif_neg this]; rfl
  | cons p P ih =>
    intro i nodes hi j
    simp only [List.length_cons] at hi
    have hval : (Fin.ofNat maxNodes i).val = i := by simp [Fin.ofNat, Nat.mod_eq_of_lt (show i < maxNodes by omega)]
    rw [placeLeaves, ih (i + 1) _ (by omega) j]
    by_cases hj : i = j.val
    · have h1 : ¬ (i + 1 ≤ j.val ∧ j.val < i + 1 + P.length) := by omega
      have h2 : i ≤ j.val ∧ j.val < i + (P.length + 1) := by omega
      have h3 : j = Fin.ofNat maxNodes i := Fin.ext (by rw [hval]; exact hj.symm)
      rw [dif_neg h1, dif_pos (by simpa using h2)]
      have h4 : j.val - i = 0 := by omega
      simp only [h4, List.getElem_cons_zero]
      simp [h3]
    · have hne : (nodes.set (Fin.ofNat maxNodes i) (leafOf p))[j] = nodes[j] :=
        Vector.getElem_set_ne _ _ (by omega)
      by_cases h2 : i ≤ j.val ∧ j.val < i + (P.length + 1)
      · have h1 : i + 1 ≤ j.val ∧ j.val < i + 1 + P.length := by omega
        rw [dif_pos h1, dif_pos (by simpa using h2)]
        obtain ⟨n, hn⟩ := Nat.exists_eq_add_of_le h1.1
        simp only [show j.val - i = n + 1 by omega, show j.val - (i + 1) = n by omega, List.getElem_cons_succ]
      · have h1 : ¬ (i + 1 ≤ j.val ∧ j.val < i + 1 + P.length) := by omega
        rw [dif_neg h1, dif_neg (by simpa using h2), hne]

/-- The leaves before the first merge are one-leaf trees over the symbols present. -/
theorem Forest.start (f : FreqTable) (old : Vector Node maxNodes) :
    Forest (present f).length (leafPairs f) (Build.start f old) := by
  have hk := present_length_le f
  have hval : ∀ i < (present f).length, (Fin.ofNat maxNodes i).val = i := fun i hi => by
    exact Nat.mod_eq_of_lt (show i < 511 by omega)
  let T : NodeIndex → HTree := fun i =>
    .leaf ((present f).getD i.val (0, 0)).1 ((present f).getD i.val (0, 0)).2.toNat
  refine ⟨⟨T, ?_, ?_⟩, ?_, ?_⟩
  · intro i hi
    simp only [Build.start, List.mem_map, List.mem_range] at hi
    obtain ⟨n, hn, rfl⟩ := hi
    refine ⟨?_, by simp only [Build.start]; rw [hval n hn]; exact hn⟩
    refine ⟨(((present f)[n]).2).setWidth 40, ?_, ?_⟩
    · simp only [Build.start]
      rw [placeLeaves_getElem _ _ _ (by show 0 + _ ≤ 511; omega)]
      simp only [hval n hn]
      rw [dif_pos ⟨Nat.zero_le _, by omega⟩]
      simp [leafOf, hn]
    · simp only [hval n hn, List.getD_eq_getElem?_getD, List.getElem?_eq_getElem hn, Option.getD_some]
      rw [BitVec.toNat_setWidth]
      exact Nat.mod_eq_of_lt ((present f)[n].2.isLt.trans (by norm_num))
  · have : (Build.start f old).queue.flatMap (fun i => (T i).leaves) = leafPairs f := by
      simp only [Build.start, List.flatMap_map, T, HTree.leaves, leafPairs, ← List.map_eq_flatMap]
      apply List.ext_getElem (by simp)
      intro n h1 h2
      have hn : n < (present f).length := by simpa using h2
      have hn' : n % maxNodes = n := Nat.mod_eq_of_lt (show n < 511 by omega)
      simp [Fin.ofNat, hn', hn]
    rw [this]
  · simp only [Build.start]
    refine List.Nodup.map_on ?_ List.nodup_range
    intro a ha b hb hab
    have := congrArg Fin.val hab
    rwa [hval a (List.mem_range.1 ha), hval b (List.mem_range.1 hb)] at this
  · simp [Build.start]; omega

/-! ## What BUILD_TREE makes -/

theorem leafPairs_length (f : FreqTable) : (leafPairs f).length = (present f).length := by simp [leafPairs]

theorem leafPairs_fst (f : FreqTable) : (leafPairs f).map Prod.fst = (present f).map Prod.fst := by
  simp [leafPairs]

/-- With at least two symbols, the array holds at ROOT one tree over exactly the symbols present, each
leaf with its count, and NODE_COUNT and ROOT are as R160 and R166 say. -/
theorem buildTree_multi (f : FreqTable) (old : Tree) (hk : 2 ≤ (present f).length) :
    (buildTree f old).nodeCount.val = 2 * (present f).length - 1 ∧
    (buildTree f old).root.val = 2 * (present f).length - 2 ∧
    ∃ t, Holds (buildTree f old).nodes (buildTree f old).root t ∧ t.leaves.Perm (leafPairs f) := by
  have hle : (present f).length ≤ 256 := present_length_le f
  have hL := leafPairs_sum_lt f
  obtain ⟨k, hk'⟩ : ∃ k, (present f).length = k + 2 := ⟨_, (Nat.sub_add_cancel hk).symm⟩
  have hb : buildTree f old =
      { nodes := ((Build.start f old.nodes).mergeAll (k + 1)).nodes
        nodeCount := Fin.ofNat (maxNodes + 1) ((Build.start f old.nodes).mergeAll (k + 1)).next
        root := ((Build.start f old.nodes).mergeAll (k + 1)).queue.headD 0 } := by
    unfold buildTree; simp [hk']
  have hq0 : (Build.start f old.nodes).queue.length = k + 2 := by simp [Build.start, hk']
  have hn0 : (Build.start f old.nodes).next = k + 2 := hk'
  have hstart : Forest (k + 2) (leafPairs f) (Build.start f old.nodes) := hk' ▸ Forest.start f old.nodes
  obtain ⟨g1, g2, g3⟩ := hstart.mergeAll (by omega) hL k (by omega)
  obtain ⟨m1, m2, m3, m4⟩ := g1.mergeStep (by omega) hL (by omega)
  rw [← Build.mergeAll_succ] at m1 m2 m3 m4
  have hq : ((Build.start f old.nodes).mergeAll (k + 1)).queue.length = 1 := by omega
  obtain ⟨T, hT, hperm⟩ := m1.trees
  match hqq : ((Build.start f old.nodes).mergeAll (k + 1)).queue with
  | [] => simp [hqq] at hq
  | [i] =>
    rw [hqq] at hT hperm m4
    simp only [List.head?_cons, Option.some.injEq] at m4
    rw [hb]
    refine ⟨?_, ?_, T i, ?_, ?_⟩
    · simp only [Fin.ofNat]
      rw [Nat.mod_eq_of_lt (by show _ < 512; omega)]; omega
    · simp only [hqq, List.headD_cons, m4, Fin.ofNat]
      rw [Nat.mod_eq_of_lt (by show _ < 511; omega)]; omega
    · simpa [hqq] using (hT i (by simp)).1
    · simpa using hperm
  | _ :: _ :: _ => simp [hqq] at hq

/-- With one symbol, the array holds the leaf of that symbol and its count at ROOT = 0 (R168). -/
theorem buildTree_single (f : FreqTable) (old : Tree) (p : Byte × Word) (hp : present f = [p]) :
    (buildTree f old).nodeCount.val = 1 ∧ (buildTree f old).root.val = 0 ∧
    (buildTree f old).nodes[(buildTree f old).root] = leafOf p := by
  have : buildTree f old = { nodes := placeLeaves [p] 0 old.nodes, nodeCount := 1, root := 0 } := by
    unfold buildTree; simp [hp]
  simp only [this]
  refine ⟨rfl, rfl, ?_⟩
  rw [placeLeaves_getElem _ _ _ (by simp)]
  simp

theorem builtState_cases (f : FreqTable) :
    ((present f) = [] ∧ builtState f = .empty) ∨ (∃ p, present f = [p] ∧ builtState f = .single) ∨
    (2 ≤ (present f).length ∧ builtState f = .multi) := by
  unfold builtState
  match h : present f with
  | [] => exact .inl ⟨rfl, rfl⟩
  | [p] => exact .inr (.inl ⟨p, rfl, rfl⟩)
  | _ :: _ :: _ => exact .inr (.inr ⟨by simp, rfl⟩)

end Sys2Proof.Machine
end

