-- ==== Sys2Proof/Laws/Codes.lean ====
section
/-!
SUPPORT. The code table that GEN_CODES derives holds each symbol's path, and DECODE's walk inverts the
codes (R172 to R176, R213, R222).
-/

namespace Sys2Proof.Machine

/-! ## A path as a number -/

/-- A path read as a binary number, first edge most significant (R173). -/
def pathNumber (p : List Bool) : Nat := p.foldl (fun a b => 2 * a + b.toNat) 0

theorem foldl_path (p : List Bool) (a : Nat) :
    p.foldl (fun a b => 2 * a + b.toNat) a = a * 2 ^ p.length + pathNumber p := by
  induction p generalizing a with
  | nil => simp [pathNumber]
  | cons b p ih =>
    unfold pathNumber
    rw [List.foldl_cons, List.foldl_cons, ih, ih (2 * 0 + b.toNat), List.length_cons, Nat.pow_succ]
    ring

theorem pathNumber_cons (b : Bool) (p : List Bool) :
    pathNumber (b :: p) = b.toNat * 2 ^ p.length + pathNumber p := by
  rw [pathNumber, List.foldl_cons, foldl_path]; simp

theorem pathNumber_lt (p : List Bool) : pathNumber p < 2 ^ p.length := by
  induction p with
  | nil => simp [pathNumber]
  | cons b p ih =>
    rw [pathNumber_cons, List.length_cons, Nat.pow_succ]
    cases b <;> simp <;> omega

/-- The bits of a path's number, most significant first, are the path (R40, R173). -/
theorem testBits_pathNumber (p : List Bool) :
    (List.range p.length).reverse.map (fun i => (pathNumber p).testBit i) = p := by
  induction p with
  | nil => rfl
  | cons b p ih =>
    rw [List.length_cons, List.range_succ, List.reverse_append, List.reverse_singleton, List.singleton_append,
      List.map_cons]
    have hlt := pathNumber_lt p
    congr 1
    · rw [pathNumber_cons, Nat.mul_comm, Nat.testBit_two_pow_mul_add _ hlt]
      cases b <;> simp
    · conv_rhs => rw [← ih]
      apply List.map_congr_left
      intro i hi
      have hi' : i < p.length := by simpa using hi
      rw [pathNumber_cons, Nat.mul_comm, Nat.testBit_two_pow_mul_add _ hlt]
      simp [hi']

/-- The code entry of a path. -/
def pathEntry (p : List Bool) : CodeEntry :=
  { present := true, len := BitVec.ofNat 8 p.length, bits := BitVec.ofNat maxCodeLen (pathNumber p) }

theorem pathEntry_len {p : List Bool} (h : p.length ≤ 255) : (pathEntry p).len.toNat = p.length := by
  simp only [pathEntry, BitVec.toNat_ofNat]
  exact Nat.mod_eq_of_lt (by omega)

/-- The code of a path's entry is the path (R173). -/
theorem pathEntry_code {p : List Bool} (h : p.length ≤ 255) : (pathEntry p).code = p := by
  have hl := pathEntry_len h
  unfold CodeEntry.code
  rw [hl]
  conv_rhs => rw [← testBits_pathNumber p]
  apply List.map_congr_left
  intro i hi
  have hi' : i < p.length := by simpa using hi
  simp only [pathEntry, BitVec.getLsbD_ofNat, show i < maxCodeLen by show i < 255; omega, decide_true,
    Bool.true_and]

/-! ## The traversal -/

/-- What traversing a tree writes into the code table. -/
def HTree.assign : HTree → Nat → Nat → CodeTable → CodeTable
  | .leaf s _, l, b, codes =>
    setEntry codes s { present := true, len := BitVec.ofNat 8 l, bits := BitVec.ofNat maxCodeLen b }
  | .node x y, l, b, codes => y.assign (l + 1) (2 * b + 1) (x.assign (l + 1) (2 * b) codes)

/-- Traversing a tree takes one pop for each of its nodes (R173). -/
theorem traverse_tree {nodes : Vector Node maxNodes} (t : HTree) : ∀ {n : NodeIndex}, Holds nodes n t →
    ∀ (fuel l b : Nat) (stack : List (NodeIndex × Nat × Nat)) (codes : CodeTable),
      traverse nodes (t.size + fuel) ((n, l, b) :: stack) codes
        = traverse nodes fuel stack (t.assign l b codes) := by
  induction t with
  | leaf s c =>
    intro n h fuel l b stack codes
    obtain ⟨w, h1, -⟩ := h
    rw [show (HTree.leaf s c).size + fuel = fuel + 1 by simp [HTree.size]; omega, traverse, h1]
    rfl
  | node x y hx hy =>
    intro n h fuel l b stack codes
    obtain ⟨w, d, li, ri, h1, -, -, -, -, h2, h3⟩ := h
    rw [show (HTree.node x y).size + fuel = (x.size + (y.size + fuel)) + 1 by simp only [HTree.size]; omega,
      traverse, h1]
    simp only
    rw [hx h2, hy h3]
    rfl

/-- The entry of a symbol that is no leaf of the tree stays as it was. -/
theorem entry_assign_absent (t : HTree) : ∀ (l b : Nat) (codes : CodeTable) (s : Byte),
    s ∉ t.leaves.map Prod.fst → entry (t.assign l b codes) s = entry codes s := by
  induction t with
  | leaf u c =>
    intro l b codes s h
    have : s ≠ u := by simpa [HTree.leaves] using h
    simp [HTree.assign, entry_setEntry, this]
  | node x y hx hy =>
    intro l b codes s h
    simp only [HTree.leaves, List.map_append, List.mem_append, not_or] at h
    rw [HTree.assign, hy _ _ _ _ h.2, hx _ _ _ _ h.1]

/-- The entry of a leaf's symbol holds its path (R173). -/
theorem entry_assign_path (t : HTree) : ∀ (l b : Nat) (codes : CodeTable) (s : Byte) (p : List Bool),
    (t.leaves.map Prod.fst).Nodup → (s, p) ∈ t.paths →
    entry (t.assign l b codes) s = { present := true, len := BitVec.ofNat 8 (l + p.length),
                                     bits := BitVec.ofNat maxCodeLen (b * 2 ^ p.length + pathNumber p) } := by
  induction t with
  | leaf u c =>
    intro l b codes s p _ h
    simp only [HTree.paths, List.mem_singleton, Prod.mk.injEq] at h
    obtain ⟨rfl, rfl⟩ := h
    simp [HTree.assign, pathNumber]
  | node x y hx hy =>
    intro l b codes s p hnd h
    simp only [HTree.leaves, List.map_append] at hnd
    obtain ⟨n1, n2, n3⟩ := List.nodup_append.1 hnd
    simp only [HTree.paths, List.mem_append, List.mem_map, Prod.mk.injEq] at h
    rcases h with ⟨⟨s', p'⟩, hm, rfl, rfl⟩ | ⟨⟨s', p'⟩, hm, rfl, rfl⟩
    · have hs : s' ∉ y.leaves.map Prod.fst := fun hy' => by
        have : s' ∈ x.leaves.map Prod.fst := by rw [← x.paths_fst]; exact List.mem_map_of_mem hm
        exact n3 s' this s' hy' rfl
      rw [HTree.assign, entry_assign_absent _ _ _ _ _ hs, hx _ _ _ _ _ n1 hm, pathNumber_cons]
      simp only [List.length_cons, Nat.pow_succ, Bool.toNat_false]
      congr 2
      · omega
      · ring
    · rw [HTree.assign, hy _ _ _ _ _ n2 hm, pathNumber_cons]
      simp only [List.length_cons, Nat.pow_succ, Bool.toNat_true]
      congr 2
      · omega
      · ring

/-! ## Path lengths -/

/-- A strict binary tree of k leaves has depth at most k − 1 (R170). -/
theorem HTree.paths_length_lt (t : HTree) {s : Byte} {p : List Bool} (h : (s, p) ∈ t.paths) :
    p.length < t.leaves.length := by
  induction t generalizing s p with
  | leaf u c =>
    simp only [paths, List.mem_singleton, Prod.mk.injEq] at h
    obtain ⟨-, rfl⟩ := h
    simp [leaves]
  | node x y hx hy =>
    have px := x.leaves_pos
    have py := y.leaves_pos
    simp only [paths, List.mem_append, List.mem_map, Prod.mk.injEq] at h
    simp only [leaves, List.length_append]
    rcases h with ⟨⟨s', p'⟩, hm, rfl, rfl⟩ | ⟨⟨s', p'⟩, hm, rfl, rfl⟩
    · have := hx hm; simp only [List.length_cons]; omega
    · have := hy hm; simp only [List.length_cons]; omega

/-- No path of a tree begins another, and each symbol has one path (R174). -/
theorem HTree.paths_prefixFree (t : HTree) {s u : Byte} {p q : List Bool} (hp : (s, p) ∈ t.paths)
    (hq : (u, q) ∈ t.paths) (h : p <+: q) : s = u ∧ p = q := by
  induction t generalizing s u p q with
  | leaf v c =>
    simp only [paths, List.mem_singleton, Prod.mk.injEq] at hp hq
    exact ⟨hp.1.trans hq.1.symm, hp.2.trans hq.2.symm⟩
  | node x y hx hy =>
    simp only [paths, List.mem_append, List.mem_map, Prod.mk.injEq] at hp hq
    rcases hp with ⟨⟨s', p'⟩, hm, rfl, rfl⟩ | ⟨⟨s', p'⟩, hm, rfl, rfl⟩ <;>
    rcases hq with ⟨⟨u', q'⟩, hn, rfl, rfl⟩ | ⟨⟨u', q'⟩, hn, rfl, rfl⟩
    · obtain ⟨rfl, rfl⟩ := hx hm hn (by simpa [List.cons_prefix_cons] using h); exact ⟨rfl, rfl⟩
    · simp [List.cons_prefix_cons] at h
    · simp [List.cons_prefix_cons] at h
    · obtain ⟨rfl, rfl⟩ := hy hm hn (by simpa [List.cons_prefix_cons] using h); exact ⟨rfl, rfl⟩

/-- The Kraft equality (R175), with `d` an upper bound of the path lengths. -/
theorem HTree.paths_kraft (t : HTree) (d : Nat) (h : ∀ s p, (s, p) ∈ t.paths → p.length ≤ d) :
    (t.paths.map (fun p => 2 ^ (d - p.2.length))).sum = 2 ^ d := by
  induction t generalizing d with
  | leaf v c => simp [paths]
  | node x y hx hy =>
    obtain ⟨d, rfl⟩ : ∃ e, d = e + 1 := by
      obtain ⟨⟨s, p⟩, hs⟩ : ∃ a, a ∈ x.paths := by
        have := x.leaves_pos
        have hl : x.paths.length = x.leaves.length := by simpa using congrArg List.length x.paths_fst
        exact List.exists_mem_of_length_pos (by omega)
      have := h s (false :: p) (by simp [paths, hs])
      exact ⟨d - 1, by simp at this; omega⟩
    have h1 := hx d fun s p hm => by
      have := h s (false :: p) (by simp [paths, hm]); simpa using this
    have h2 := hy d fun s p hm => by
      have := h s (true :: p) (by simp [paths, hm]); simpa using this
    simp only [paths, List.map_append, List.sum_append, List.map_map, Function.comp_def, List.length_cons,
      Nat.add_sub_add_right, h1, h2]
    ring

/-! ## The walk -/

/-- Walking the path of a leaf emits its symbol and returns to the root (R213). -/
theorem walk_path {nodes : Vector Node maxNodes} (root : NodeIndex) (t : HTree) : ∀ {n : NodeIndex},
    Holds nodes n t → ∀ {s : Byte} {p : List Bool}, (s, p) ∈ t.paths → p ≠ [] → ∀ bits : List Bool,
      walk nodes root n (p ++ bits) = (walk nodes root root bits).map (fun (out, last) => (s :: out, last)) := by
  induction t with
  | leaf u c =>
    intro n _ s p hp hne
    simp only [HTree.paths, List.mem_singleton, Prod.mk.injEq] at hp
    exact absurd hp.2 hne
  | node x y hx hy =>
    have step : ∀ (b : Bool) (z : HTree), (∀ {n : NodeIndex}, Holds nodes n z → ∀ {s : Byte} {p : List Bool},
          (s, p) ∈ z.paths → p ≠ [] → ∀ bits : List Bool, walk nodes root n (p ++ bits)
            = (walk nodes root root bits).map (fun (out, last) => (s :: out, last))) →
        ∀ {n li ri : NodeIndex} {w : Weight} {d : Byte}, nodes[n] = .internal w d li ri →
        Holds nodes (if b then ri else li) z → ∀ {s : Byte} {p : List Bool}, (s, p) ∈ z.paths →
        ∀ bits : List Bool, walk nodes root n (b :: p ++ bits)
            = (walk nodes root root bits).map (fun (out, last) => (s :: out, last)) := by
      intro b z hz n li ri w d hn hh s p hp bits
      rw [List.cons_append, walk, hn]
      simp only
      cases z with
      | leaf u c =>
        obtain ⟨w', h1, -⟩ := hh
        simp only [HTree.paths, List.mem_singleton, Prod.mk.injEq] at hp
        obtain ⟨rfl, rfl⟩ := hp
        rw [h1]; rfl
      | node z1 z2 =>
        obtain ⟨w', d', l', r', h1, -⟩ := id hh
        rw [h1]
        refine hz hh hp ?_ bits
        simp only [HTree.paths, List.mem_append, List.mem_map, Prod.mk.injEq] at hp
        rcases hp with ⟨_, _, _, rfl⟩ | ⟨_, _, _, rfl⟩ <;> simp
    intro n h s p hp _ bits
    obtain ⟨w, d, li, ri, h1, -, -, -, -, h2, h3⟩ := h
    simp only [HTree.paths, List.mem_append, List.mem_map, Prod.mk.injEq] at hp
    rcases hp with ⟨⟨s', p'⟩, hm, rfl, rfl⟩ | ⟨⟨s', p'⟩, hm, rfl, rfl⟩
    · exact step false x hx h1 (by simpa using h2) hm bits
    · exact step true y hy h1 (by simpa using h3) hm bits

/-- In a tree whose root is internal, the walk never meets a leaf at its cursor, and it ends at a node the
tree holds (R213). -/
theorem walk_isSome {nodes : Vector Node maxNodes} {root : NodeIndex} {l r : HTree}
    (hroot : Holds nodes root (.node l r)) (bits : List Bool) :
    ∀ {cur : NodeIndex} {x y : HTree}, Holds nodes cur (.node x y) → ∃ out last, walk nodes root cur bits = some (out, last) := by
  induction bits with
  | nil => intro cur x y _; exact ⟨_, _, rfl⟩
  | cons b bits ih =>
    intro cur x y h
    obtain ⟨w, d, li, ri, h1, -, -, -, -, h2, h3⟩ := h
    obtain ⟨z, hz⟩ : ∃ z, Holds nodes (if b then ri else li) z := by cases b <;> exact ⟨_, by assumption⟩
    rw [walk, h1]
    simp only
    cases z with
    | leaf u c =>
      obtain ⟨w', g1, -⟩ := hz
      rw [g1]
      obtain ⟨out, last, ho⟩ := ih hroot
      exact ⟨u :: out, last, by simp [ho]⟩
    | node z1 z2 =>
      obtain ⟨w', d', l', r', g1, -⟩ := id hz
      rw [g1]
      exact ih hz

/-! ## Current trees and codes -/

/-- The code table of a MULTI tree: PRESENT for exactly the leaves, each with its path (R172, R173). -/
theorem codeTable_multi {tr : Tree} {t : HTree} (h : Holds tr.nodes tr.root t) (hk : t.leaves.length ≤ 256)
    (hnd : (t.leaves.map Prod.fst).Nodup) :
    ∃ codes, codeTable .multi tr = some codes ∧
      (∀ s, (entry codes s).present = true ↔ s ∈ t.leaves.map Prod.fst) ∧
      (∀ s p, (s, p) ∈ t.paths → entry codes s = pathEntry p) ∧
      (∀ s, (entry codes s).present = true → ∃ p, (s, p) ∈ t.paths) ∧
      (∀ s, (entry codes s).present = false → entry codes s = .absent) := by
  have hsize := t.size_eq
  have hall : ∀ s p, (s, p) ∈ t.paths → entry (t.assign 0 0 CodeTable.absent) s = pathEntry p := by
    intro s p hp
    rw [entry_assign_path t 0 0 _ s p hnd hp]
    simp [pathEntry]
  have habs : ∀ s, s ∉ t.leaves.map Prod.fst → entry (t.assign 0 0 CodeTable.absent) s = .absent := by
    intro s hs
    rw [entry_assign_absent _ _ _ _ _ hs, entry_codesAbsent]
  have hpath : ∀ s, s ∈ t.leaves.map Prod.fst → ∃ p, (s, p) ∈ t.paths := by
    intro s hs
    rw [← t.paths_fst] at hs
    obtain ⟨⟨s', p⟩, hm, rfl⟩ := List.mem_map.1 hs
    exact ⟨p, hm⟩
  have hpres : ∀ s, (entry (t.assign 0 0 CodeTable.absent) s).present = true ↔ s ∈ t.leaves.map Prod.fst := by
    intro s
    by_cases hs : s ∈ t.leaves.map Prod.fst
    · obtain ⟨p, hp⟩ := hpath s hs
      simp [hall s p hp, pathEntry, hs]
    · rw [habs s hs]
      exact ⟨fun h => absurd h (by simp [CodeEntry.absent]), fun h => absurd h hs⟩
  refine ⟨t.assign 0 0 CodeTable.absent, ?_, hpres, hall, ?_, ?_⟩
  · obtain ⟨fuel, hf⟩ : ∃ fuel, maxNodes = t.size + fuel := ⟨511 - t.size, by show 511 = _; omega⟩
    show traverse tr.nodes maxNodes [(tr.root, 0, 0)] CodeTable.absent = _
    rw [hf, traverse_tree t h]
    cases fuel <;> rfl
  · exact fun s hs => hpath s ((hpres s).1 hs)
  · intro s hs
    apply habs
    intro hm
    rw [(hpres s).2 hm] at hs
    cases hs

/-- Walking the codes of data from the root gives the data back (R174, R222). -/
theorem walk_encodeBits {tr : Tree} {l r : HTree} (h : Holds tr.nodes tr.root (.node l r))
    (hk : (HTree.node l r).leaves.length ≤ 256) (hnd : ((HTree.node l r).leaves.map Prod.fst).Nodup)
    {codes : CodeTable} (hc : codeTable .multi tr = some codes) :
    ∀ (data : List Byte) (bits : List Bool), encodeBits codes data = some bits →
      walk tr.nodes tr.root tr.root bits = some (data, tr.root) := by
  obtain ⟨codes', h1, h2, h3, h4, -⟩ := codeTable_multi h hk hnd
  obtain rfl : codes' = codes := by rw [h1] at hc; exact Option.some.inj hc
  intro data
  induction data with
  | nil => intro bits hb; simp only [encodeBits, Option.some.injEq] at hb; subst hb; rfl
  | cons s data ih =>
    intro bits hb
    rw [encodeBits] at hb
    split at hb
    · rename_i hp
      obtain ⟨p, hm⟩ := h4 s hp
      cases he : encodeBits codes' data with
      | none => rw [he] at hb; simp at hb
      | some rest =>
        rw [he] at hb
        simp only [Option.map_some, Option.some.injEq] at hb
        have hlen := HTree.paths_length_lt _ hm
        rw [h3 s p hm, pathEntry_code (by omega)] at hb
        subst hb
        have hne : p ≠ [] := by
          simp only [HTree.paths, List.mem_append, List.mem_map, Prod.mk.injEq] at hm
          rcases hm with ⟨_, _, _, rfl⟩ | ⟨_, _, _, rfl⟩ <;> simp
        rw [walk_path tr.root _ h hm hne, ih rest he]
        rfl
    · cases hb

/-- Below an internal root every path is nonempty. -/
theorem HTree.paths_ne_nil {l r : HTree} {x : Byte} {p : List Bool} (h : (x, p) ∈ (HTree.node l r).paths) : p ≠ [] := by
  simp only [HTree.paths, List.mem_append, List.mem_map] at h
  rcases h with ⟨q, -, hq⟩ | ⟨q, -, hq⟩ <;> (cases hq; simp)

/-- Walking a proper beginning of a path emits nothing, and ends below where it started. -/
theorem walk_proper {nodes : Vector Node maxNodes} {root : NodeIndex} (t : HTree) : ∀ {n : NodeIndex}, Holds nodes n t →
    ∀ {x : Byte} {p q : List Bool}, (x, p ++ q) ∈ t.paths → q ≠ [] →
      ∃ cur, walk nodes root n p = some ([], cur) ∧ cur.val ≤ n.val ∧ (p ≠ [] → cur.val < n.val) := by
  induction t with
  | leaf a c =>
    intro n _ x p q hp hq
    simp [HTree.paths] at hp
    exact absurd hp.2.2 hq
  | node l r ihl ihr =>
    intro n h x p q hp hq
    cases p with
    | nil => exact ⟨n, rfl, Nat.le_refl _, by simp⟩
    | cons b p =>
      obtain ⟨w, d, li, ri, hn, -, -, hl, hr, Hl, Hr⟩ := h
      simp only [HTree.paths, List.mem_append, List.mem_map] at hp
      have notleaf : ∀ (t : HTree) (c : NodeIndex), Holds nodes c t → (x, p ++ q) ∈ t.paths → ∃ w d a e, nodes[c] = .internal w d a e := by
        intro t c ht hm
        cases t with
        | leaf a c => simp [HTree.paths] at hm; exact absurd hm.2.2 hq
        | node l r => obtain ⟨w, d, li, ri, hn, -⟩ := ht; exact ⟨w, d, li, ri, hn⟩
      rcases hp with ⟨⟨y, p'⟩, hm, he⟩ | ⟨⟨y, p'⟩, hm, he⟩
      · simp at he; obtain ⟨rfl, rfl, rfl⟩ := he
        obtain ⟨_, _, _, _, hi⟩ := notleaf l li Hl hm
        obtain ⟨cur, h1, h2, -⟩ := ihl Hl hm hq
        refine ⟨cur, ?_, by omega, fun _ => by omega⟩
        rw [walk]; simp only [hn]; simp [hi, h1]
      · simp at he; obtain ⟨rfl, rfl, rfl⟩ := he
        obtain ⟨_, _, _, _, hi⟩ := notleaf r ri Hr hm
        obtain ⟨cur, h1, h2, -⟩ := ihr Hr hm hq
        refine ⟨cur, ?_, by omega, fun _ => by omega⟩
        rw [walk]; simp only [hn]; simp [hi, h1]

/-- Every long enough bit sequence begins with the path of a leaf. -/
theorem HTree.path_exists (t : HTree) : ∀ bits : List Bool, t.leaves.length ≤ bits.length + 1 →
    ∃ x p, (x, p) ∈ t.paths ∧ p <+: bits := by
  induction t with
  | leaf s c => intro bits _; exact ⟨s, [], by simp [HTree.paths], List.nil_prefix⟩
  | node l r ihl ihr =>
    intro bits h
    have hl := l.leaves_pos
    have hr := r.leaves_pos
    simp only [HTree.leaves, List.length_append] at h
    cases bits with
    | nil => simp at h; omega
    | cons b bits =>
      simp only [List.length_cons] at h
      cases b
      · obtain ⟨x, p, hp, hb⟩ := ihl bits (by omega)
        exact ⟨x, false :: p, by simp [HTree.paths]; exact hp, by simpa using hb⟩
      · obtain ⟨x, p, hp, hb⟩ := ihr bits (by omega)
        exact ⟨x, true :: p, by simp [HTree.paths]; exact hp, by simpa using hb⟩

end Sys2Proof.Machine
end

