-- ==== Sys2Proof/Laws/Memory.lean ====
section
/-!
SUPPORT. The laws of buffer memory: what a byte reads as after a write and after a window became
unspecified, and that every operation keeps the canonical form and stays inside memory.
-/

namespace Sys2Proof.Machine

@[simp] theorem cellsAt_length (a : Nat) (bs : List Byte) : (cellsAt a bs).length = bs.length := by
  induction bs generalizing a with
  | nil => rfl
  | cons b bs ih => simp [cellsAt, ih]

theorem mem_cellsAt_bounds {a : Nat} {bs : List Byte} {c : Host.Cell} (h : c ∈ cellsAt a bs) :
    a ≤ c.1 ∧ c.1 < a + bs.length := by
  induction bs generalizing a with
  | nil => simp [cellsAt] at h
  | cons b bs ih =>
    simp only [cellsAt, List.mem_cons] at h
    obtain rfl | h := h
    · simp
    · have := ih h; simp only [List.length_cons]; omega

theorem pairwise_cellsAt (a : Nat) (bs : List Byte) :
    (cellsAt a bs).Pairwise (fun c d => c.1 < d.1) := by
  induction bs generalizing a with
  | nil => exact List.Pairwise.nil
  | cons b bs ih =>
    exact List.pairwise_cons.2 ⟨fun c hc => by have := mem_cellsAt_bounds hc; show a < c.1; omega, ih _⟩

theorem find_cellsAt (a x : Nat) (bs : List Byte) :
    ((cellsAt a bs).find? (fun c => c.1 == x)).map Prod.snd = if a ≤ x then bs[x - a]? else none := by
  induction bs generalizing a with
  | nil => simp [cellsAt]
  | cons b bs ih =>
    by_cases hx : a = x
    · subst hx; simp [cellsAt]
    · have hb : (a == x) = false := by simpa using hx
      simp only [cellsAt, List.find?_cons, hb, ih]
      by_cases hlt : a ≤ x
      · have h1 : a + 1 ≤ x := by omega
        obtain ⟨n, rfl⟩ := Nat.exists_eq_add_of_le h1
        have : a + 1 + n - a = n + 1 := by omega
        simp [hlt, h1, this, show a + 1 + n - (a + 1) = n by omega]
      · have : ¬ a + 1 ≤ x := by omega
        simp [hlt, this]

/-- The listed byte at `x` after a write at `a`: the written one inside the range, the old one outside. -/
theorem lookup_writeBytes (m : Memory) (a x : Nat) (bs : List Byte) :
    (m.writeBytes a bs).lookup x = if a ≤ x ∧ x < a + bs.length then bs[x - a]? else m.lookup x := by
  have hc := find_cellsAt a x bs
  have hf (p : Nat → Bool) (hp : p x = true) :
      (m.cells.filter (fun c => p c.1)).find? (fun c => c.1 == x) = m.cells.find? (fun c => c.1 == x) := by
    rw [List.find?_filter]
    congr 1; funext c
    by_cases h : c.1 = x
    · simp [h, hp]
    · simp [h]
  have hn (p : Nat → Bool) (hp : p x = false) :
      (m.cells.filter (fun c => p c.1)).find? (fun c => c.1 == x) = none := by
    rw [List.find?_filter, List.find?_eq_none]
    intro c _
    by_cases h : c.1 = x
    · simp [h, hp]
    · simp [h]
  unfold Memory.lookup Memory.writeBytes
  simp only [List.find?_append, Option.map_or, hc]
  by_cases h1 : a ≤ x
  · rw [hn (fun y => y < a) (by simpa using h1)]
    by_cases h2 : x < a + bs.length
    · simp [h1, h2, List.getElem?_eq_getElem (show x - a < bs.length by omega)]
    · rw [hf (fun y => a + bs.length ≤ y) (by simpa using h2)]
      simp [h1, h2, List.getElem?_eq_none (show bs.length ≤ x - a by omega)]
  · rw [hf (fun y => y < a) (by simpa using h1), hn (fun y => a + bs.length ≤ y) (by simp; omega)]
    simp [h1]

@[simp] theorem drawAt_writeBytes (m : Memory) (a x : Nat) (bs : List Byte) :
    (m.writeBytes a bs).drawAt x = m.drawAt x := rfl

/-- A byte outside a write reads as before (R77). -/
theorem read_writeBytes_outside (m : Memory) {a x : Nat} {bs : List Byte}
    (h : ¬ (a ≤ x ∧ x < a + bs.length)) : (m.writeBytes a bs).read x = m.read x := by
  simp [Memory.read, lookup_writeBytes, h]

/-- A byte inside a write reads as written (R62). -/
theorem read_writeBytes_inside (m : Memory) {a i : Nat} {bs : List Byte} (h : i < bs.length) :
    (m.writeBytes a bs).read (a + i) = bs[i] := by
  simp [Memory.read, lookup_writeBytes, h]

@[simp] theorem readBytes_length (m : Memory) (a n : Nat) : (m.readBytes a n).length = n := by
  simp [Memory.readBytes]

@[simp] theorem source_length (s : State) : s.source.length = s.srcLen := readBytes_length _ _ _

/-- Reading back exactly what was written (R62). -/
theorem readBytes_writeBytes (m : Memory) (a : Nat) (bs : List Byte) :
    (m.writeBytes a bs).readBytes a bs.length = bs := by
  apply List.ext_getElem (by simp)
  intro i h1 h2
  simp [Memory.readBytes, read_writeBytes_inside m h2]

theorem readBytes_congr {m m' : Memory} {a n : Nat}
    (h : ∀ x, a ≤ x → x < a + n → m'.read x = m.read x) : m'.readBytes a n = m.readBytes a n := by
  apply List.map_congr_left
  intro i hi
  have := List.mem_range.1 hi
  exact h _ (by omega) (by omega)

/-- Below its start a window changes nothing (R266). -/
theorem read_scramble_below (m : Memory) (size k : Nat) {a x : Nat} (h : x < a) :
    (m.scramble size a k).read x = m.read x := by
  unfold Memory.scramble
  split
  · have hl : ((m.cells.filter (fun c => decide (c.1 < a))).find? (fun c => c.1 == x))
        = m.cells.find? (fun c => c.1 == x) := by
      rw [List.find?_filter]
      congr 1; funext c
      by_cases hc : c.1 = x
      · simp [hc, h]
      · simp [hc]
    have hd : ∀ (l : List (Nat × Nat)) (j : Nat),
        ((l.filter (fun w => decide (w.1 < a))) ++ [(a, k)]).foldl (fun k w => if w.1 ≤ x then w.2 else k) j
          = l.foldl (fun k w => if w.1 ≤ x then w.2 else k) j := by
      intro l
      induction l with
      | nil => intro j; simp [show ¬ a ≤ x by omega]
      | cons w l ih =>
        intro j
        by_cases hw : w.1 < a
        · simp only [List.filter_cons, hw, decide_true, if_true, List.cons_append, List.foldl_cons]
          exact ih _
        · simp only [List.filter_cons, hw, decide_false, List.foldl_cons]
          have : ¬ w.1 ≤ x := by omega
          simpa [this] using ih j
    simp only [Memory.read, Memory.lookup, hl, Memory.drawAt, hd]
  · rfl

/-- From its start up, a window is unspecified: each byte is that of its draw (R266, U2). -/
theorem read_scramble_window (m : Memory) (k : Nat) {size a x : Nat} (h : a ≤ x) (hs : x < size) :
    (m.scramble size a k).read x = Config.freeByte k x := by
  have hl : (m.cells.filter (fun c => decide (c.1 < a))).find? (fun c => c.1 == x) = none := by
    rw [List.find?_filter, List.find?_eq_none]
    intro c _
    simp only [decide_eq_true_eq, beq_iff_eq, not_and]
    omega
  simp [Memory.scramble, show a < size by omega, Memory.read, Memory.lookup, hl, Memory.drawAt, h]

/-! ## The canonical form -/

theorem wf_iff (m : Memory) : m.wf = true ↔
    m.cells.Pairwise (fun c d => c.1 < d.1) ∧ m.windows.Pairwise (fun c d => c.1 < d.1) := by
  simp [Memory.wf]

/-- A write keeps the canonical form. -/
theorem wf_writeBytes {m : Memory} (a : Nat) (bs : List Byte) (h : m.wf = true) :
    (m.writeBytes a bs).wf = true := by
  rw [wf_iff] at *
  refine ⟨?_, h.2⟩
  refine List.pairwise_append.2 ⟨List.pairwise_append.2 ⟨h.1.filter _, pairwise_cellsAt a bs, ?_⟩, h.1.filter _, ?_⟩
  · intro c hc d hd
    have h1 : c.1 < a := by simpa using (List.mem_filter.1 hc).2
    have := mem_cellsAt_bounds hd
    omega
  · intro c hc d hd
    have h1 : a + bs.length ≤ d.1 := by simpa using (List.mem_filter.1 hd).2
    rcases List.mem_append.1 hc with hc | hc
    · have h2 : c.1 < a := by simpa using (List.mem_filter.1 hc).2
      omega
    · have := mem_cellsAt_bounds hc
      omega

/-- A window that becomes unspecified keeps the canonical form. -/
theorem wf_scramble {m : Memory} (size a k : Nat) (h : m.wf = true) : (m.scramble size a k).wf = true := by
  unfold Memory.scramble
  split
  · rw [wf_iff] at *
    refine ⟨h.1.filter _, List.pairwise_append.2 ⟨h.2.filter _, List.pairwise_singleton _ _, ?_⟩⟩
    intro c hc d hd
    have h1 : c.1 < a := by simpa using (List.mem_filter.1 hc).2
    simp only [List.mem_singleton] at hd
    subst hd; exact h1
  · exact h

/-- Every cell after a write is an old one or lies in the written range. -/
theorem mem_cells_writeBytes {m : Memory} {a : Nat} {bs : List Byte} {c : Host.Cell}
    (h : c ∈ (m.writeBytes a bs).cells) : c ∈ m.cells ∨ (a ≤ c.1 ∧ c.1 < a + bs.length) := by
  simp only [Memory.writeBytes, List.mem_append, List.mem_filter] at h
  rcases h with (h | h) | h
  · exact .inl h.1
  · exact .inr (mem_cellsAt_bounds h)
  · exact .inl h.1

theorem mem_cells_scramble {m : Memory} {size a k : Nat} {c : Host.Cell}
    (h : c ∈ (m.scramble size a k).cells) : c ∈ m.cells := by
  unfold Memory.scramble at h
  split at h
  · exact (List.mem_filter.1 h).1
  · exact h

theorem mem_windows_scramble {m : Memory} {size a k : Nat} {w : Nat × Nat}
    (h : w ∈ (m.scramble size a k).windows) : w ∈ m.windows ∨ (w = (a, k) ∧ a < size) := by
  unfold Memory.scramble at h
  split at h
  · simp only [List.mem_append, List.mem_filter, List.mem_singleton] at h
    rcases h with h | h
    · exact .inl h.1
    · exact .inr ⟨h, ‹_›⟩
  · exact .inl h

/-- The memory after reset is canonical: it lists nothing. -/
theorem wf_resetWith (p : Params) (k : Nat) : (State.resetWith p k).mem.wf = true := rfl

end Sys2Proof.Machine
end

