-- ==== Sys2Proof/Laws/Serial.lean ====
section
/-!
SUPPORT. The parser of FREQ_LOAD accepts exactly what the serializer writes (R130 to R136).
-/

namespace Sys2Proof.Machine

/-- One record of a serialized table (R130). -/
def record (p : Byte × Word) : List Byte := p.1 :: be32 p.2

theorem serFreq_eq (f : FreqTable) : serFreq f = (present f).flatMap record := rfl

theorem records_length (L : List (Byte × Word)) : (L.flatMap record).length = 5 * L.length := by
  induction L with
  | nil => rfl
  | cons p L ih => simp only [List.flatMap_cons, List.length_append, ih, List.length_cons]; simp [record, be32]; omega

/-- The serialized table has 5 bytes for each symbol present (R131). -/
theorem serFreq_length (f : FreqTable) : (serFreq f).length = 5 * (present f).length :=
  records_length _

/-- The table that records write over another one. -/
def applyRecords (new : FreqTable) (L : List (Byte × Word)) : FreqTable :=
  L.foldl (fun t p => setEntry t p.1 p.2) new

/-- A list of records that a serialized table can hold, above a previous symbol (R130). -/
def Ascending (prev : Int) (L : List (Byte × Word)) : Prop :=
  (∀ p ∈ L, prev < p.1.toNat ∧ p.2 ≠ 0) ∧ L.Pairwise (fun p q => p.1.toNat < q.1.toNat)

theorem ascending_cons {prev : Int} {p : Byte × Word} {L : List (Byte × Word)} :
    Ascending prev (p :: L) ↔ prev < p.1.toNat ∧ p.2 ≠ 0 ∧ Ascending p.1.toNat L := by
  simp only [Ascending, List.mem_cons, forall_eq_or_imp, List.pairwise_cons]
  constructor
  · rintro ⟨⟨⟨h1, h2⟩, h3⟩, h4, h5⟩
    exact ⟨h1, h2, fun q hq => ⟨by have := h4 q hq; omega, (h3 q hq).2⟩, h5⟩
  · rintro ⟨h1, h2, h3, h4⟩
    exact ⟨⟨⟨h1, h2⟩, fun q hq => ⟨by have := (h3 q hq).1; omega, (h3 q hq).2⟩⟩,
      fun q hq => by have := (h3 q hq).1; omega, h4⟩

/-- Ascending records with nonzero counts are accepted (R132). -/
theorem parseRecords_records (L : List (Byte × Word)) : ∀ (prev : Int) (new : FreqTable), Ascending prev L →
    ∀ rest, parseRecords (L.flatMap record ++ rest) prev new =
      parseRecords rest (L.foldl (fun _ p => (p.1.toNat : Int)) prev) (applyRecords new L) := by
  induction L with
  | nil => intro prev new _ rest; rfl
  | cons p L ih =>
    intro prev new h rest
    obtain ⟨h1, h2, h3⟩ := ascending_cons.1 h
    have hb : ofBe32 (p.2.extractLsb' 24 8) (p.2.extractLsb' 16 8) (p.2.extractLsb' 8 8) (p.2.extractLsb' 0 8) = p.2 :=
      ofBe32_be32 p.2
    rw [show (p :: L).flatMap record ++ rest = p.1 :: p.2.extractLsb' 24 8 :: p.2.extractLsb' 16 8
      :: p.2.extractLsb' 8 8 :: p.2.extractLsb' 0 8 :: (L.flatMap record ++ rest) by simp [record, be32], parseRecords]
    simp only [hb]
    rw [if_neg h2, if_neg (by omega), ih _ _ h3]
    rfl

/-- What the parser accepts is a list of ascending records with nonzero counts (R132, R134). -/
theorem parseRecords_ok (n : Nat) : ∀ (b : List Byte) (prev : Int) (new f : FreqTable), b.length ≤ n →
    parseRecords b prev new = .ok f →
    ∃ L, b = L.flatMap record ∧ Ascending prev L ∧ f = applyRecords new L := by
  induction n with
  | zero =>
    intro b prev new f hb h
    obtain rfl := List.length_eq_zero_iff.1 (Nat.le_zero.1 hb)
    simp only [parseRecords, Except.ok.injEq] at h
    exact ⟨[], rfl, ⟨by simp, List.Pairwise.nil⟩, h.symm⟩
  | succ n ih =>
    intro b prev new f hb h
    match b, hb, h with
    | [], _, h =>
      simp only [parseRecords, Except.ok.injEq] at h
      exact ⟨[], rfl, ⟨by simp, List.Pairwise.nil⟩, h.symm⟩
    | [_], _, h | [_, _], _, h | [_, _, _], _, h | [_, _, _, _], _, h => cases h
    | v :: b1 :: b2 :: b3 :: b4 :: rest, hb, h =>
      rw [parseRecords] at h
      split at h
      · cases h
      · split at h
        · cases h
        · obtain ⟨L, h1, h2, h3⟩ := ih rest _ _ f (by simp at hb; omega) h
          refine ⟨(v, ofBe32 b1 b2 b3 b4) :: L, ?_, ?_, h3⟩
          · simp [record, be32_ofBe32, h1]
          · exact ascending_cons.2 ⟨by simp only; omega, ‹_›, h2⟩

/-- The entry of a symbol after records: its record's count, or the old entry. -/
theorem entry_applyRecords (L : List (Byte × Word)) : ∀ (new : FreqTable) (s : Byte),
    L.Pairwise (fun p q => p.1.toNat < q.1.toNat) →
    (∀ c, (s, c) ∈ L → entry (applyRecords new L) s = c) ∧
    ((∀ c, (s, c) ∉ L) → entry (applyRecords new L) s = entry new s) := by
  induction L with
  | nil => intro new s _; exact ⟨by simp, fun _ => rfl⟩
  | cons p L ih =>
    intro new s h
    obtain ⟨h1, h2⟩ := List.pairwise_cons.1 h
    obtain ⟨i1, i2⟩ := ih (setEntry new p.1 p.2) s h2
    constructor
    · intro c hc
      rcases List.mem_cons.1 hc with rfl | hc
      · have : ∀ c', (s, c') ∉ L := fun c' hc' => by have := h1 _ hc'; simp at this
        exact (i2 this).trans (by simp)
      · exact i1 c hc
    · intro hc
      have hne : s ≠ p.1 := fun he => hc p.2 (by subst he; simp)
      refine (i2 fun c hc' => hc c (List.mem_cons_of_mem _ hc')).trans ?_
      simp [entry_setEntry, hne]

theorem present_ascending (f : FreqTable) : Ascending (-1) (present f) :=
  ⟨fun p hp => ⟨by omega, fun h => by have := (mem_present.1 hp).2; rw [h] at this; simp at this⟩,
    present_pairwise f⟩

/-- Loading the records of a table over the empty table gives the table (R136). -/
theorem applyRecords_present (f : FreqTable) : applyRecords FreqTable.zero (present f) = f := by
  apply table_ext
  intro s
  obtain ⟨h1, h2⟩ := entry_applyRecords (present f) FreqTable.zero s (present_pairwise f)
  by_cases h : 0 < (entry f s).toNat
  · exact h1 _ (mem_present.2 ⟨rfl, h⟩)
  · rw [h2 fun c hc => h (by have := mem_present.1 hc; simp only at this; exact this.1 ▸ this.2)]
    rw [entry_freqZero]
    exact (BitVec.eq_of_toNat_eq (by simp; omega)).symm

/-- The records of the table that ascending records make are those records (R136). -/
theorem present_applyRecords {L : List (Byte × Word)} (h : Ascending (-1) L) :
    present (applyRecords FreqTable.zero L) = L := by
  have hm : ∀ p, p ∈ present (applyRecords FreqTable.zero L) ↔ p ∈ L := by
    rintro ⟨s, c⟩
    obtain ⟨h1, h2⟩ := entry_applyRecords L FreqTable.zero s h.2
    rw [mem_present]
    constructor
    · rintro ⟨he, hc⟩
      simp only at he hc
      by_contra hn
      have : ∀ c, (s, c) ∉ L := fun c' hc' => hn (by rw [he, h1 c' hc']; exact hc')
      rw [he, h2 this, entry_freqZero] at hc
      simp at hc
    · intro hc
      refine ⟨(h1 c hc).symm, ?_⟩
      have h0 := (h.1 _ hc).2
      simp only at h0
      show 0 < c.toNat
      exact Nat.pos_of_ne_zero fun h' => h0 (BitVec.eq_of_toNat_eq h')
  have nd : ∀ {M : List (Byte × Word)}, M.Pairwise (fun p q => p.1.toNat < q.1.toNat) → M.Nodup := fun hM =>
    hM.imp fun h' he => by subst he; omega
  have hp : (present (applyRecords FreqTable.zero L)).Perm L :=
    (List.perm_ext_iff_of_nodup (nd (present_pairwise _)) (nd h.2)).2 hm
  exact hp.eq_of_pairwise (fun a b _ _ h1 h2 => by omega) (present_pairwise _) h.2

/-- The parser gives the table back from its serialized form (R134, R136). -/
theorem parseFreq_serFreq (f : FreqTable) : parseFreq (serFreq f) = .ok f := by
  have h := parseRecords_records (present f) (-1) FreqTable.zero (present_ascending f) []
  rw [List.append_nil, applyRecords_present] at h
  rw [parseFreq, if_neg (by rw [serFreq_length]; omega), serFreq_eq, h]
  rfl

/-- Whatever the parser accepts is the serialized form of the table it gives (R134). -/
theorem parseFreq_ok {b : List Byte} {f : FreqTable} (h : parseFreq b = .ok f) : b = serFreq f := by
  unfold parseFreq at h
  split at h
  · cases h
  · obtain ⟨L, h1, h2, h3⟩ := parseRecords_ok b.length b (-1) FreqTable.zero f le_rfl h
    rw [serFreq_eq, h3, present_applyRecords h2, h1]

/-- The parser's failures are the three format faults (R132). -/
theorem parseRecords_error (n : Nat) : ∀ (b : List Byte) (prev : Int) (new : FreqTable) (c : ErrCode), b.length ≤ n →
    parseRecords b prev new = .error c → c = .fmtFreqLength ∨ c = .fmtFreqZero ∨ c = .fmtFreqOrder := by
  induction n with
  | zero =>
    intro b prev new c hb h
    obtain rfl := List.length_eq_zero_iff.1 (Nat.le_zero.1 hb)
    simp [parseRecords] at h
  | succ n ih =>
    intro b prev new c hb h
    match b, hb, h with
    | [], _, h => cases h
    | [_], _, h | [_, _], _, h | [_, _, _], _, h | [_, _, _, _], _, h =>
      exact .inl (Except.error.inj h).symm
    | v :: b1 :: b2 :: b3 :: b4 :: rest, hb, h =>
      rw [parseRecords] at h
      split at h
      · exact .inr (.inl (Except.error.inj h).symm)
      · split at h
        · exact .inr (.inr (Except.error.inj h).symm)
        · exact ih rest _ _ c (by simp at hb; omega) h

theorem parseFreq_error {b : List Byte} {c : ErrCode} (h : parseFreq b = .error c) :
    c = .fmtFreqLength ∨ c = .fmtFreqZero ∨ c = .fmtFreqOrder := by
  unfold parseFreq at h
  split at h
  · exact .inl (Except.error.inj h).symm
  · exact parseRecords_error b.length b _ _ c le_rfl h

end Sys2Proof.Machine
end

