-- ==== Sys2Proof/Laws/State.lean ====
section
/-!
SUPPORT. One lemma per field per update of the state, so that no later proof unfolds an update.
-/

namespace Sys2Proof.Machine

/-! ## complete -/

@[simp] theorem complete_params (s : State) (r : Word) : (s.complete r).params = s.params := rfl

@[simp] theorem complete_src (s : State) (r : Word) : (s.complete r).src = s.src := rfl

@[simp] theorem complete_len (s : State) (r : Word) : (s.complete r).len = s.len := rfl

@[simp] theorem complete_dst (s : State) (r : Word) : (s.complete r).dst = s.dst := rfl

@[simp] theorem complete_result (s : State) (r : Word) : (s.complete r).result = r := rfl

@[simp] theorem complete_err (s : State) (r : Word) : (s.complete r).err = s.err := rfl

@[simp] theorem complete_treeState (s : State) (r : Word) : (s.complete r).treeState = s.treeState := rfl

@[simp] theorem complete_codesValid (s : State) (r : Word) : (s.complete r).codesValid = s.codesValid := rfl

@[simp] theorem complete_busy (s : State) (r : Word) : (s.complete r).busy = false := rfl

@[simp] theorem complete_freq (s : State) (r : Word) : (s.complete r).freq = s.freq := rfl

@[simp] theorem complete_tree (s : State) (r : Word) : (s.complete r).tree = s.tree := rfl

@[simp] theorem complete_codes (s : State) (r : Word) : (s.complete r).codes = s.codes := rfl

@[simp] theorem complete_mem (s : State) (r : Word) : (s.complete r).mem = s.mem := rfl

@[simp] theorem complete_faults (s : State) (r : Word) : (s.complete r).faults = s.faults := rfl

@[simp] theorem complete_draws (s : State) (r : Word) : (s.complete r).draws = s.draws := rfl

@[simp] theorem complete_program (s : State) (r : Word) : (s.complete r).program = s.program := rfl

@[simp] theorem complete_seen (s : State) (r : Word) : (s.complete r).seen = s.seen := rfl

@[simp] theorem complete_memBytes (s : State) (r : Word) : (s.complete r).memBytes = s.memBytes := rfl

/-! ## invalidate -/

@[simp] theorem invalidate_params (s : State) : (s.invalidate).params = s.params := rfl

@[simp] theorem invalidate_src (s : State) : (s.invalidate).src = s.src := rfl

@[simp] theorem invalidate_len (s : State) : (s.invalidate).len = s.len := rfl

@[simp] theorem invalidate_dst (s : State) : (s.invalidate).dst = s.dst := rfl

@[simp] theorem invalidate_result (s : State) : (s.invalidate).result = s.result := rfl

@[simp] theorem invalidate_err (s : State) : (s.invalidate).err = s.err := rfl

@[simp] theorem invalidate_treeState (s : State) : (s.invalidate).treeState = .invalid := rfl

@[simp] theorem invalidate_codesValid (s : State) : (s.invalidate).codesValid = false := rfl

@[simp] theorem invalidate_busy (s : State) : (s.invalidate).busy = s.busy := rfl

@[simp] theorem invalidate_freq (s : State) : (s.invalidate).freq = s.freq := rfl

@[simp] theorem invalidate_tree (s : State) : (s.invalidate).tree = s.tree := rfl

@[simp] theorem invalidate_codes (s : State) : (s.invalidate).codes = s.codes := rfl

@[simp] theorem invalidate_mem (s : State) : (s.invalidate).mem = s.mem := rfl

@[simp] theorem invalidate_faults (s : State) : (s.invalidate).faults = s.faults := rfl

@[simp] theorem invalidate_draws (s : State) : (s.invalidate).draws = s.draws := rfl

@[simp] theorem invalidate_program (s : State) : (s.invalidate).program = s.program := rfl

@[simp] theorem invalidate_seen (s : State) : (s.invalidate).seen = s.seen := rfl

@[simp] theorem invalidate_memBytes (s : State) : (s.invalidate).memBytes = s.memBytes := rfl

/-! ## raise -/

@[simp] theorem raise_params (c : ErrCode) (s : State) : (raise c s).params = s.params := rfl

@[simp] theorem raise_src (c : ErrCode) (s : State) : (raise c s).src = s.src := rfl

@[simp] theorem raise_len (c : ErrCode) (s : State) : (raise c s).len = s.len := rfl

@[simp] theorem raise_dst (c : ErrCode) (s : State) : (raise c s).dst = s.dst := rfl

@[simp] theorem raise_result (c : ErrCode) (s : State) :
    (raise c s).result = Config.freeResult s.draws := rfl

@[simp] theorem raise_err (c : ErrCode) (s : State) : (raise c s).err = some c := rfl

@[simp] theorem raise_treeState (c : ErrCode) (s : State) : (raise c s).treeState = s.treeState := rfl

@[simp] theorem raise_codesValid (c : ErrCode) (s : State) : (raise c s).codesValid = s.codesValid := rfl

@[simp] theorem raise_busy (c : ErrCode) (s : State) : (raise c s).busy = false := rfl

@[simp] theorem raise_freq (c : ErrCode) (s : State) : (raise c s).freq = s.freq := rfl

@[simp] theorem raise_tree (c : ErrCode) (s : State) : (raise c s).tree = s.tree := rfl

@[simp] theorem raise_codes (c : ErrCode) (s : State) : (raise c s).codes = s.codes := rfl

@[simp] theorem raise_mem (c : ErrCode) (s : State) : (raise c s).mem = s.mem := rfl

@[simp] theorem raise_faults (c : ErrCode) (s : State) : (raise c s).faults = s.faults ++ [c] := rfl

@[simp] theorem raise_draws (c : ErrCode) (s : State) : (raise c s).draws = s.draws + 1 := rfl

@[simp] theorem raise_program (c : ErrCode) (s : State) : (raise c s).program = s.program := rfl

@[simp] theorem raise_seen (c : ErrCode) (s : State) : (raise c s).seen = s.seen := rfl

@[simp] theorem raise_memBytes (c : ErrCode) (s : State) : (raise c s).memBytes = s.memBytes := rfl

/-! ## raiseWindow -/

@[simp] theorem raiseWindow_params (c : ErrCode) (s : State) : (raiseWindow c s).params = s.params := rfl

@[simp] theorem raiseWindow_src (c : ErrCode) (s : State) : (raiseWindow c s).src = s.src := rfl

@[simp] theorem raiseWindow_len (c : ErrCode) (s : State) : (raiseWindow c s).len = s.len := rfl

@[simp] theorem raiseWindow_dst (c : ErrCode) (s : State) : (raiseWindow c s).dst = s.dst := rfl

@[simp] theorem raiseWindow_result (c : ErrCode) (s : State) :
    (raiseWindow c s).result = Config.freeResult s.draws := rfl

@[simp] theorem raiseWindow_err (c : ErrCode) (s : State) : (raiseWindow c s).err = some c := rfl

@[simp] theorem raiseWindow_treeState (c : ErrCode) (s : State) : (raiseWindow c s).treeState = s.treeState := rfl

@[simp] theorem raiseWindow_codesValid (c : ErrCode) (s : State) : (raiseWindow c s).codesValid = s.codesValid := rfl

@[simp] theorem raiseWindow_busy (c : ErrCode) (s : State) : (raiseWindow c s).busy = false := rfl

@[simp] theorem raiseWindow_freq (c : ErrCode) (s : State) : (raiseWindow c s).freq = s.freq := rfl

@[simp] theorem raiseWindow_tree (c : ErrCode) (s : State) : (raiseWindow c s).tree = s.tree := rfl

@[simp] theorem raiseWindow_codes (c : ErrCode) (s : State) : (raiseWindow c s).codes = s.codes := rfl

@[simp] theorem raiseWindow_mem (c : ErrCode) (s : State) :
    (raiseWindow c s).mem = s.mem.scramble s.memBytes s.dst.toNat s.draws := rfl

@[simp] theorem raiseWindow_faults (c : ErrCode) (s : State) : (raiseWindow c s).faults = s.faults ++ [c] := rfl

@[simp] theorem raiseWindow_draws (c : ErrCode) (s : State) : (raiseWindow c s).draws = s.draws + 1 := rfl

@[simp] theorem raiseWindow_program (c : ErrCode) (s : State) : (raiseWindow c s).program = s.program := rfl

@[simp] theorem raiseWindow_seen (c : ErrCode) (s : State) : (raiseWindow c s).seen = s.seen := rfl

@[simp] theorem raiseWindow_memBytes (c : ErrCode) (s : State) : (raiseWindow c s).memBytes = s.memBytes := rfl

/-! ## raiseTable -/

@[simp] theorem raiseTable_params (c : ErrCode) (s : State) : (raiseTable c s).params = s.params := rfl

@[simp] theorem raiseTable_src (c : ErrCode) (s : State) : (raiseTable c s).src = s.src := rfl

@[simp] theorem raiseTable_len (c : ErrCode) (s : State) : (raiseTable c s).len = s.len := rfl

@[simp] theorem raiseTable_dst (c : ErrCode) (s : State) : (raiseTable c s).dst = s.dst := rfl

@[simp] theorem raiseTable_result (c : ErrCode) (s : State) :
    (raiseTable c s).result = Config.freeResult s.draws := rfl

@[simp] theorem raiseTable_err (c : ErrCode) (s : State) : (raiseTable c s).err = some c := rfl

@[simp] theorem raiseTable_treeState (c : ErrCode) (s : State) : (raiseTable c s).treeState = s.treeState := rfl

@[simp] theorem raiseTable_codesValid (c : ErrCode) (s : State) : (raiseTable c s).codesValid = s.codesValid := rfl

@[simp] theorem raiseTable_busy (c : ErrCode) (s : State) : (raiseTable c s).busy = false := rfl

@[simp] theorem raiseTable_freq (c : ErrCode) (s : State) :
    (raiseTable c s).freq = tabulate (Config.freeCount s.draws) := rfl

@[simp] theorem raiseTable_tree (c : ErrCode) (s : State) : (raiseTable c s).tree = s.tree := rfl

@[simp] theorem raiseTable_codes (c : ErrCode) (s : State) : (raiseTable c s).codes = s.codes := rfl

@[simp] theorem raiseTable_mem (c : ErrCode) (s : State) : (raiseTable c s).mem = s.mem := rfl

@[simp] theorem raiseTable_faults (c : ErrCode) (s : State) : (raiseTable c s).faults = s.faults ++ [c] := rfl

@[simp] theorem raiseTable_draws (c : ErrCode) (s : State) : (raiseTable c s).draws = s.draws + 1 := rfl

@[simp] theorem raiseTable_program (c : ErrCode) (s : State) : (raiseTable c s).program = s.program := rfl

@[simp] theorem raiseTable_seen (c : ErrCode) (s : State) : (raiseTable c s).seen = s.seen := rfl

@[simp] theorem raiseTable_memBytes (c : ErrCode) (s : State) : (raiseTable c s).memBytes = s.memBytes := rfl

/-! ## acknowledge -/

@[simp] theorem acknowledge_params (s : State) : (s.acknowledge).params = s.params := rfl

@[simp] theorem acknowledge_src (s : State) : (s.acknowledge).src = s.src := rfl

@[simp] theorem acknowledge_len (s : State) : (s.acknowledge).len = s.len := rfl

@[simp] theorem acknowledge_dst (s : State) : (s.acknowledge).dst = s.dst := rfl

@[simp] theorem acknowledge_result (s : State) : (s.acknowledge).result = s.result := rfl

@[simp] theorem acknowledge_err (s : State) : (s.acknowledge).err = none := rfl

@[simp] theorem acknowledge_treeState (s : State) : (s.acknowledge).treeState = s.treeState := rfl

@[simp] theorem acknowledge_codesValid (s : State) : (s.acknowledge).codesValid = s.codesValid := rfl

@[simp] theorem acknowledge_busy (s : State) : (s.acknowledge).busy = false := rfl

@[simp] theorem acknowledge_freq (s : State) : (s.acknowledge).freq = s.freq := rfl

@[simp] theorem acknowledge_tree (s : State) : (s.acknowledge).tree = s.tree := rfl

@[simp] theorem acknowledge_codes (s : State) : (s.acknowledge).codes = s.codes := rfl

@[simp] theorem acknowledge_mem (s : State) : (s.acknowledge).mem = s.mem := rfl

@[simp] theorem acknowledge_faults (s : State) : (s.acknowledge).faults = s.faults := rfl

@[simp] theorem acknowledge_draws (s : State) : (s.acknowledge).draws = s.draws := rfl

@[simp] theorem acknowledge_program (s : State) : (s.acknowledge).program = s.program := rfl

@[simp] theorem acknowledge_seen (s : State) : (s.acknowledge).seen = s.seen := rfl

@[simp] theorem acknowledge_memBytes (s : State) : (s.acknowledge).memBytes = s.memBytes := rfl

/-! ## store -/

@[simp] theorem store_params (s : State) (out : List Byte) (r : Word) :
    (s.store out r).params = s.params := rfl

@[simp] theorem store_src (s : State) (out : List Byte) (r : Word) :
    (s.store out r).src = s.src := rfl

@[simp] theorem store_len (s : State) (out : List Byte) (r : Word) :
    (s.store out r).len = s.len := rfl

@[simp] theorem store_dst (s : State) (out : List Byte) (r : Word) :
    (s.store out r).dst = s.dst := rfl

@[simp] theorem store_result (s : State) (out : List Byte) (r : Word) :
    (s.store out r).result = r := rfl

@[simp] theorem store_err (s : State) (out : List Byte) (r : Word) :
    (s.store out r).err = s.err := rfl

@[simp] theorem store_treeState (s : State) (out : List Byte) (r : Word) :
    (s.store out r).treeState = s.treeState := rfl

@[simp] theorem store_codesValid (s : State) (out : List Byte) (r : Word) :
    (s.store out r).codesValid = s.codesValid := rfl

@[simp] theorem store_busy (s : State) (out : List Byte) (r : Word) :
    (s.store out r).busy = false := rfl

@[simp] theorem store_freq (s : State) (out : List Byte) (r : Word) :
    (s.store out r).freq = s.freq := rfl

@[simp] theorem store_tree (s : State) (out : List Byte) (r : Word) :
    (s.store out r).tree = s.tree := rfl

@[simp] theorem store_codes (s : State) (out : List Byte) (r : Word) :
    (s.store out r).codes = s.codes := rfl

@[simp] theorem store_mem (s : State) (out : List Byte) (r : Word) :
    (s.store out r).mem = s.mem.writeBytes s.dstAddr out := rfl

@[simp] theorem store_faults (s : State) (out : List Byte) (r : Word) :
    (s.store out r).faults = s.faults := rfl

@[simp] theorem store_draws (s : State) (out : List Byte) (r : Word) :
    (s.store out r).draws = s.draws := rfl

@[simp] theorem store_program (s : State) (out : List Byte) (r : Word) :
    (s.store out r).program = s.program := rfl

@[simp] theorem store_seen (s : State) (out : List Byte) (r : Word) :
    (s.store out r).seen = s.seen := rfl

@[simp] theorem store_memBytes (s : State) (out : List Byte) (r : Word) : (s.store out r).memBytes = s.memBytes := rfl

/-! ## afterReset -/

@[simp] theorem afterReset_params (s : State) :
    (s.afterReset).params = s.params := rfl

@[simp] theorem afterReset_src (s : State) :
    (s.afterReset).src = 0 := rfl

@[simp] theorem afterReset_len (s : State) :
    (s.afterReset).len = 0 := rfl

@[simp] theorem afterReset_dst (s : State) :
    (s.afterReset).dst = 0 := rfl

@[simp] theorem afterReset_result (s : State) :
    (s.afterReset).result = 0 := rfl

@[simp] theorem afterReset_err (s : State) :
    (s.afterReset).err = none := rfl

@[simp] theorem afterReset_treeState (s : State) :
    (s.afterReset).treeState = .invalid := rfl

@[simp] theorem afterReset_codesValid (s : State) :
    (s.afterReset).codesValid = false := rfl

@[simp] theorem afterReset_busy (s : State) :
    (s.afterReset).busy = false := rfl

@[simp] theorem afterReset_freq (s : State) :
    (s.afterReset).freq = Vector.replicate numSymbols 0 := rfl

@[simp] theorem afterReset_tree (s : State) :
    (s.afterReset).tree = .zero := rfl

@[simp] theorem afterReset_codes (s : State) :
    (s.afterReset).codes = Vector.replicate numSymbols .absent := rfl

@[simp] theorem afterReset_mem (s : State) :
    (s.afterReset).mem = { cells := [], windows := [(0, s.draws)] } := rfl

@[simp] theorem afterReset_faults (s : State) :
    (s.afterReset).faults = s.faults := rfl

@[simp] theorem afterReset_draws (s : State) :
    (s.afterReset).draws = s.draws + 1 := rfl

@[simp] theorem afterReset_program (s : State) :
    (s.afterReset).program = s.program := rfl

@[simp] theorem afterReset_seen (s : State) :
    (s.afterReset).seen = s.seen := rfl

@[simp] theorem afterReset_memBytes (s : State) : (s.afterReset).memBytes = s.memBytes := rfl

/-! ## placeWord -/

@[simp] theorem placeWord_params (w : Word) (s : State) : (placeWord w s).params = s.params := rfl

@[simp] theorem placeWord_src (w : Word) (s : State) : (placeWord w s).src = s.src := rfl

@[simp] theorem placeWord_len (w : Word) (s : State) : (placeWord w s).len = s.len := rfl

@[simp] theorem placeWord_dst (w : Word) (s : State) : (placeWord w s).dst = s.dst := rfl

@[simp] theorem placeWord_result (w : Word) (s : State) : (placeWord w s).result = s.result := rfl

@[simp] theorem placeWord_err (w : Word) (s : State) : (placeWord w s).err = s.err := rfl

@[simp] theorem placeWord_treeState (w : Word) (s : State) : (placeWord w s).treeState = s.treeState := rfl

@[simp] theorem placeWord_codesValid (w : Word) (s : State) : (placeWord w s).codesValid = s.codesValid := rfl

@[simp] theorem placeWord_busy (w : Word) (s : State) : (placeWord w s).busy = s.busy := rfl

@[simp] theorem placeWord_freq (w : Word) (s : State) : (placeWord w s).freq = s.freq := rfl

@[simp] theorem placeWord_tree (w : Word) (s : State) : (placeWord w s).tree = s.tree := rfl

@[simp] theorem placeWord_codes (w : Word) (s : State) : (placeWord w s).codes = s.codes := rfl

@[simp] theorem placeWord_mem (w : Word) (s : State) : (placeWord w s).mem = s.mem := rfl

@[simp] theorem placeWord_faults (w : Word) (s : State) : (placeWord w s).faults = s.faults := rfl

@[simp] theorem placeWord_draws (w : Word) (s : State) : (placeWord w s).draws = s.draws := rfl

@[simp] theorem placeWord_program (w : Word) (s : State) :
    (placeWord w s).program = .wr .cmd w :: s.program := rfl

@[simp] theorem placeWord_seen (w : Word) (s : State) : (placeWord w s).seen = s.seen := rfl

@[simp] theorem placeWord_memBytes (w : Word) (s : State) : (placeWord w s).memBytes = s.memBytes := rfl

end Sys2Proof.Machine
end

