-- ==== Sys2Proof/Laws/Exec.lean ====
section
/-!
SUPPORT. Everything a command and a step can do, said once: the cases later proofs start from.
-/

namespace Sys2Proof.Machine

/-- Every state a command can leave. -/
inductive Effect (i : Instr) (s : State) : State → Prop where
  /-- A fault that leaves tables and memory as they were (R264). -/
  | faulted (c : ErrCode) (hc : c ∈ faultsOf i) : Effect i s (raise c s)
  /-- A format fault of FREQ_LOAD (R133). -/
  | tableFaulted (c : ErrCode) (hi : i = .freqLoad) (hc : c ∈ faultsOf i) (hr : s.sourceInRange = true)
      (hp : parseFreq s.source = .error c) : Effect i s (raiseTable c s.invalidate)
  /-- A fault of ENCODE or DECODE after the source check (R266). -/
  | windowFaulted (c : ErrCode) (hi : i = .encode ∨ i = .decode) (hc : c ∈ faultsOf i)
      (hr : s.sourceInRange = true) : Effect i s (raiseWindow c s)
  /-- A new frequency table. -/
  | loaded (f : FreqTable) (r : Word) (hi : i = .freqClear ∨ i = .freqCount ∨ i = .freqLoad) :
      Effect i s ({ s with freq := f }.invalidate.complete r)
  /-- RESULT alone. -/
  | answered (r : Word) (hi : ∃ sym, i = .freqRead sym) : Effect i s (s.complete r)
  /-- Bytes written at DST. -/
  | stored (out : List Byte) (r : Word)
      (hi : i = .freqStore ∨ (∃ sym, i = .codeRead sym) ∨ i = .encode ∨ i = .decode)
      (hd : s.destInRange out.length = true) : Effect i s (s.store out r)
  /-- A new tree (R160). -/
  | built (hi : i = .buildTree) : Effect i s
      ({ s with tree := buildTree s.freq s.tree, treeState := builtState s.freq, codesValid := false }.complete
        (BitVec.ofNat 32 (buildTree s.freq s.tree).nodeCount.val))
  /-- New codes (R172). -/
  | generated (codes : CodeTable) (hi : i = .genCodes) (ht : s.treeState ≠ .invalid)
      (hc : codeTable s.treeState s.tree = some codes) : Effect i s
      ({ s with codes := codes, codesValid := true }.complete (BitVec.ofNat 32 (longestCode codes)))
  /-- A fault acknowledged (R250). -/
  | acknowledged (hi : i = .clearStatus) : Effect i s s.acknowledge

theorem storeOutput_cases (s : State) (m : Nat) (out : Unit → List Byte) :
    (s.destInRange m = false ∧ s.storeOutput m out = raiseWindow .memRange s) ∨
    (s.destInRange m = true ∧ overlaps s.srcAddr s.srcLen s.dstAddr m = true ∧
      s.storeOutput m out = raiseWindow .overlap s) ∨
    (s.destInRange m = true ∧ overlaps s.srcAddr s.srcLen s.dstAddr m = false ∧
      s.storeOutput m out = s.store (out ()) (BitVec.ofNat 32 m)) := by
  unfold State.storeOutput
  cases h1 : s.destInRange m <;> cases h2 : overlaps s.srcAddr s.srcLen s.dstAddr m <;> simp

/-- The end shared by ENCODE and DECODE is a window fault or a store. -/
theorem Effect.ofStoreOutput {i : Instr} {s : State} (hi : i = .encode ∨ i = .decode)
    (hr : s.sourceInRange = true) (out : Unit → List Byte) {m : Nat} (hm : m = (out ()).length) :
    Effect i s (s.storeOutput m out) := by
  have hc : ErrCode.memRange ∈ faultsOf i ∧ ErrCode.overlap ∈ faultsOf i := by
    rcases hi with rfl | rfl <;> simp [faultsOf]
  rcases storeOutput_cases s m out with ⟨-, h⟩ | ⟨-, -, h⟩ | ⟨h1, -, h⟩ <;> rw [h]
  · exact .windowFaulted _ hi hc.1 hr
  · exact .windowFaulted _ hi hc.2 hr
  · exact .stored _ _ (by tauto) (hm ▸ h1)

theorem unpack_error {p : List Byte} {c : ErrCode} (h : unpack p = .error c) :
    c = .fmtTruncated ∨ c = .fmtTrailer := by
  unfold unpack at h
  split at h
  · exact .inl (Except.error.inj h).symm
  · split at h
    · exact .inr (Except.error.inj h).symm
    · split at h
      · split at h
        · cases h
        · exact .inr (Except.error.inj h).symm
      · cases h

/-- The one inversion of `exec`: a next state is one of the effects. -/
theorem exec_effect {i : Instr} {s t : State} (h : exec i s = .next t) : Effect i s t := by
  cases i with
  | freqClear =>
    simp only [exec, execFreqClear, Host.Outcome.next.injEq] at h
    exact h ▸ .loaded _ _ (.inl rfl)
  | freqCount =>
    simp only [exec, execFreqCount] at h
    split at h <;> simp only [Host.Outcome.next.injEq] at h <;> subst h
    · exact .faulted _ (by simp [faultsOf])
    · exact .loaded _ _ (.inr (.inl rfl))
  | freqLoad =>
    simp only [exec, execFreqLoad] at h
    split at h
    · simp only [Host.Outcome.next.injEq] at h
      exact h ▸ .faulted _ (by simp [faultsOf])
    · rename_i hr
      split at h <;> simp only [Host.Outcome.next.injEq] at h <;> subst h
      · rename_i c hp
        refine .tableFaulted c rfl ?_ (by simpa using hr) hp
        rcases parseFreq_error hp with rfl | rfl | rfl <;> simp [faultsOf]
      · exact .loaded _ _ (.inr (.inr rfl))
  | freqStore =>
    simp only [exec, execFreqStore] at h
    split at h <;> simp only [Host.Outcome.next.injEq] at h <;> subst h
    · exact .faulted _ (by simp [faultsOf])
    · rename_i hd
      exact .stored _ _ (.inl rfl) (by simpa using hd)
  | freqRead sym =>
    simp only [exec, execFreqRead, Host.Outcome.next.injEq] at h
    exact h ▸ .answered _ ⟨sym, rfl⟩
  | buildTree =>
    simp only [exec, execBuildTree, Host.Outcome.next.injEq] at h
    exact h ▸ .built rfl
  | genCodes =>
    simp only [exec, execGenCodes] at h
    split at h
    · simp only [Host.Outcome.next.injEq] at h
      exact h ▸ .faulted _ (by simp [faultsOf])
    · split at h
      · cases h
      · simp only [Host.Outcome.next.injEq] at h
        exact h ▸ .generated _ rfl ‹_› ‹_›
  | codeRead sym =>
    simp only [exec, execCodeRead] at h
    split at h
    · simp only [Host.Outcome.next.injEq] at h
      exact h ▸ .faulted _ (by simp [faultsOf])
    · split at h <;> simp only [Host.Outcome.next.injEq] at h <;> subst h
      · exact .faulted _ (by simp [faultsOf])
      · rename_i hd
        exact .stored _ _ (.inr (.inl ⟨sym, rfl⟩)) (by rw [packGroups_length]; simpa using hd)
  | encode =>
    simp only [exec, execEncode] at h
    split at h
    · simp only [Host.Outcome.next.injEq] at h
      exact h ▸ .faulted _ (by simp [faultsOf])
    · split at h
      · simp only [Host.Outcome.next.injEq] at h
        exact h ▸ .faulted _ (by simp [faultsOf])
      · rename_i hr
        have hr : s.sourceInRange = true := by simpa using hr
        split at h <;> simp only [Host.Outcome.next.injEq] at h <;> subst h
        · exact .windowFaulted _ (.inl rfl) (by simp [faultsOf]) hr
        · exact .ofStoreOutput (.inl rfl) hr _ rfl
  | decode =>
    simp only [exec, execDecode] at h
    split at h
    · simp only [Host.Outcome.next.injEq] at h
      exact h ▸ .faulted _ (by simp [faultsOf])
    · split at h
      · simp only [Host.Outcome.next.injEq] at h
        exact h ▸ .faulted _ (by simp [faultsOf])
      · rename_i hr
        have hr : s.sourceInRange = true := by simpa using hr
        have win : ∀ c, c ∈ faultsOf .decode → Effect .decode s (raiseWindow c s) := fun c hc =>
          .windowFaulted c (.inr rfl) hc hr
        unfold decodePayload at h
        split at h
        · split at h <;> simp only [Host.Outcome.next.injEq] at h <;> subst h
          · exact win _ (by simp [faultsOf])
          · exact .ofStoreOutput (.inr rfl) hr _ rfl
        · split at h
          · rename_i c hu
            simp only [Host.Outcome.next.injEq] at h
            subst h
            rcases unpack_error hu with rfl | rfl <;> exact win _ (by simp [faultsOf])
          · split at h
            · unfold decodeSingle at h
              split at h
              · simp only [Host.Outcome.next.injEq] at h
                exact h ▸ win _ (by simp [faultsOf])
              · split at h
                · simp only [Host.Outcome.next.injEq] at h
                  exact h ▸ .ofStoreOutput (.inr rfl) hr _ (by simp)
                · cases h
            · unfold decodeMulti at h
              split at h
              · cases h
              · split at h <;> simp only [Host.Outcome.next.injEq] at h <;> subst h
                · exact win _ (by simp [faultsOf])
                · exact .ofStoreOutput (.inr rfl) hr _ rfl
  | clearStatus =>
    simp only [exec, execClearStatus, Host.Outcome.next.injEq] at h
    exact h ▸ .acknowledged rfl

/-- Every state that issuing a command word can leave (R28, R95). -/
theorem issue_cases {w : Word} {s t : State} (h : issue w s = .next t) :
    (s.err ≠ none ∧ w ≠ 0x30 ∧ t = s) ∨
    (s.err ≠ none ∧ w = 0x30 ∧ t = { s with busy := true }.acknowledge) ∨
    (s.err = none ∧ (∃ e, decodeWord s.params w = .error e) ∧ t = raise .badCommand s) ∨
    (s.err = none ∧ ∃ i, decodeWord s.params w = .ok i ∧ Effect i { s with busy := true } t) := by
  unfold issue at h
  split at h
  · rename_i he
    split at h
    · rename_i hw
      exact .inr (.inl ⟨he, hw, (Host.Outcome.next.inj h).symm⟩)
    · rename_i hw
      exact .inl ⟨he, hw, (Host.Outcome.next.inj h).symm⟩
  · rename_i he
    have he : s.err = none := by simpa using he
    split at h
    · rename_i e hd
      exact .inr (.inr (.inl ⟨he, ⟨e, hd⟩, (Host.Outcome.next.inj h).symm⟩))
    · rename_i i hd
      exact .inr (.inr (.inr ⟨he, i, hd, exec_effect h⟩))

end Sys2Proof.Machine
end

