-- ==== Sys2Proof/Laws/Current.lean ====
section
/-!
SUPPORT. What the invariant says of a current tree and of current codes: the tree that the node array
holds, over exactly the symbols present, and the path that each code is (R30, R31, R171, R173).
-/

namespace Sys2Proof.Machine

/-- The state a host observes also meets the invariant with BUSY left aside. -/
theorem State.Inv.atIssue {s : State} (h : s.Inv) : s.InvAtIssue := by
  have e : ({ s with busy := false } : State) = s := by rw [← h.idle]
  exact e ▸ h

/-- So does the state that a command starts from: the host's next action taken off, BUSY set (R95). -/
theorem State.Inv.running {s : State} (h : s.Inv) (rest : List HostAction) :
    ({ s with program := rest, busy := true } : State).InvAtIssue :=
  ⟨h.params_wf, h.mem_wf, h.cells_inside, h.windows_inside, rfl, h.codes_need_tree, h.tree_current, h.codes_current,
    h.err_recorded⟩

theorem leafPairs_nodup (f : FreqTable) : ((leafPairs f).map Prod.fst).Nodup := by
  rw [leafPairs_fst]; exact present_nodup f

/-- A current MULTI tree: an internal root over exactly the symbols present. -/
theorem State.Inv.multi {s : State} (h : s.Inv) (hm : s.treeState = .multi) :
    ∃ l r, Holds s.tree.nodes s.tree.root (.node l r) ∧ (HTree.node l r).leaves.Perm (leafPairs s.freq) ∧
      2 ≤ (present s.freq).length := by
  obtain ⟨h1, old, h2⟩ := h.tree_current (by rw [hm]; simp)
  have hk : 2 ≤ (present s.freq).length := by
    rcases builtState_cases s.freq with ⟨-, hb⟩ | ⟨p, -, hb⟩ | ⟨hk, -⟩
    · rw [hm, hb] at h1; cases h1
    · rw [hm, hb] at h1; cases h1
    · exact hk
  obtain ⟨-, -, t, ht, hp⟩ := buildTree_multi s.freq old hk
  rw [h2]
  cases t with
  | leaf x c =>
    have := hp.length_eq
    rw [leafPairs_length] at this
    simp [HTree.leaves] at this
    omega
  | node l r => exact ⟨l, r, ht, hp, hk⟩

/-- A current SINGLE tree: ROOT is the leaf of the one symbol present. -/
theorem State.Inv.single {s : State} (h : s.Inv) (hm : s.treeState = .single) :
    ∃ p, present s.freq = [p] ∧ s.tree.nodes[s.tree.root] = leafOf p := by
  obtain ⟨h1, old, h2⟩ := h.tree_current (by rw [hm]; simp)
  rcases builtState_cases s.freq with ⟨-, hb⟩ | ⟨p, hp, -⟩ | ⟨-, hb⟩
  · rw [hm, hb] at h1; cases h1
  · refine ⟨p, hp, ?_⟩
    have := (buildTree_single s.freq old p hp).2.2
    simp only [h2, this]
  · rw [hm, hb] at h1; cases h1

/-- A current EMPTY tree: no symbol is present. -/
theorem State.Inv.empty {s : State} (h : s.Inv) (hm : s.treeState = .empty) : present s.freq = [] := by
  obtain ⟨h1, -⟩ := h.tree_current (by rw [hm]; simp)
  rcases builtState_cases s.freq with ⟨hp, -⟩ | ⟨p, -, hb⟩ | ⟨-, hb⟩
  · exact hp
  · rw [hm, hb] at h1; cases h1
  · rw [hm, hb] at h1; cases h1

/-- The leaves of a tree over the symbols present are those symbols, each once. -/
theorem leaves_facts {f : FreqTable} {t : HTree} (hp : t.leaves.Perm (leafPairs f)) :
    t.leaves.length = (present f).length ∧ (t.leaves.map Prod.fst).Nodup ∧
      ∀ x, x ∈ t.leaves.map Prod.fst ↔ 0 < (entry f x).toNat := by
  refine ⟨by rw [hp.length_eq, leafPairs_length], (hp.map Prod.fst).nodup_iff.2 (leafPairs_nodup f), fun x => ?_⟩
  rw [(hp.map Prod.fst).mem_iff, leafPairs_fst, List.mem_map]
  constructor
  · rintro ⟨p, hm, rfl⟩
    obtain ⟨h1, h2⟩ := mem_present.1 hm
    rwa [← h1]
  · intro h
    exact ⟨(x, entry f x), mem_present.2 ⟨rfl, h⟩, rfl⟩

/-- The codes of a current MULTI tree: each present symbol's entry is that of its path. -/
theorem State.Inv.multi_codes {s : State} (h : s.Inv) (hm : s.treeState = .multi) :
    ∃ l r codes, Holds s.tree.nodes s.tree.root (.node l r) ∧
      (HTree.node l r).leaves.Perm (leafPairs s.freq) ∧ codeTable s.treeState s.tree = some codes ∧
      (∀ x, (entry codes x).present = true ↔ 0 < (entry s.freq x).toNat) ∧
      (∀ x p, (x, p) ∈ (HTree.node l r).paths → entry codes x = pathEntry p ∧ p.length ≤ 255 ∧
        p.length < (present s.freq).length) ∧
      (∀ x, (entry codes x).present = true → ∃ p, (x, p) ∈ (HTree.node l r).paths) ∧
      (∀ x, (entry codes x).present = false → entry codes x = .absent) := by
  obtain ⟨l, r, ht, hp, hk⟩ := h.multi hm
  obtain ⟨f1, f2, f3⟩ := leaves_facts hp
  have hle := present_length_le s.freq
  obtain ⟨codes, c1, c2, c3, c4, c5⟩ := codeTable_multi ht (by omega) f2
  refine ⟨l, r, codes, ht, hp, by rw [hm]; exact c1, fun x => (c2 x).trans (f3 x), fun x p hx => ?_, c4, c5⟩
  have := HTree.paths_length_lt _ hx
  exact ⟨c3 x p hx, by omega, by omega⟩

/-- A current tree always gives a code table: GEN_CODES meets no broken tree. -/
theorem State.Inv.codeTable_isSome {s : State} (h : s.Inv) (ht : s.treeState ≠ .invalid) :
    ∃ codes, codeTable s.treeState s.tree = some codes := by
  match hm : s.treeState with
  | .invalid => exact absurd hm ht
  | .empty => exact ⟨_, rfl⟩
  | .single =>
    obtain ⟨p, -, hn⟩ := h.single hm
    exact ⟨_, by simp only [codeTable, hn, leafOf]; rfl⟩
  | .multi =>
    obtain ⟨_, _, codes, -, -, hc, -⟩ := h.multi_codes hm
    exact ⟨codes, hm ▸ hc⟩

/-- Valid codes of a current MULTI tree are its paths. -/
theorem State.Inv.current_codes {s : State} (hi : s.Inv) (hm : s.treeState = .multi) (hv : s.codesValid = true) :
   ∃ l r, Holds s.tree.nodes s.tree.root (.node l r) ∧
      (HTree.node l r).leaves.Perm (leafPairs s.freq) ∧ codeTable s.treeState s.tree = some s.codes ∧
      (∀ x, (entry s.codes x).present = true ↔ 0 < (entry s.freq x).toNat) ∧
      (∀ x p, (x, p) ∈ (HTree.node l r).paths → entry s.codes x = pathEntry p ∧ p.length ≤ 255 ∧
        p.length < (present s.freq).length) ∧
      (∀ x, (entry s.codes x).present = true → ∃ p, (x, p) ∈ (HTree.node l r).paths) ∧
      (∀ x, (entry s.codes x).present = false → entry s.codes x = .absent) := by
  obtain ⟨l, r, codes', h1, h2, hc', h⟩ := hi.multi_codes hm
  have := hi.codes_current hv
  rw [hc'] at this; cases this
  exact ⟨l, r, h1, h2, hc', h⟩

end Sys2Proof.Machine
end

