-- ==== Sys2Proof/Laws/Merge.lean ====
section
/-!
SUPPORT. The merges of BUILD_TREE step by step: which node a pop takes (R160, R161), what one merge writes,
and that the nodes already made stay as they are (R163).
-/

namespace Sys2Proof.Machine

theorem keyLt_iff (nodes : Vector Node maxNodes) (i j : NodeIndex) : keyLt nodes i j = true ↔
    nodes[i].weight.toNat < nodes[j].weight.toNat ∨
      (nodes[i].weight.toNat = nodes[j].weight.toNat ∧ nodes[i].disc.toNat < nodes[j].disc.toNat) := by
  simp [keyLt]

theorem mergeNode_disc (nodes : Vector Node maxNodes) (l r : NodeIndex) : (mergeNode nodes l r).disc =
    if nodes[l].disc.toNat ≤ nodes[r].disc.toNat then nodes[l].disc else nodes[r].disc := rfl

/-- No node left on the queue has a smaller key than the one popped. -/
theorem popLeast_least {nodes : Vector Node maxNodes} {q rest : List NodeIndex} {i : NodeIndex}
    (h : popLeast nodes q = some (i, rest)) : ∀ j ∈ rest, keyLt nodes j i = false := by
  induction q generalizing i rest with
  | nil => simp [popLeast] at h
  | cons a q ih =>
    rw [popLeast] at h
    split at h
    · rename_i hp
      simp only [Option.some.injEq, Prod.mk.injEq] at h
      obtain ⟨rfl, rfl⟩ := h
      simp
    · rename_i m q' hp
      have hle := ih hp
      split at h <;> rename_i hk <;> simp only [Option.some.injEq, Prod.mk.injEq] at h <;> obtain ⟨rfl, rfl⟩ := h
      · intro j hj
        rcases List.mem_cons.1 hj with rfl | hj
        · simp only [← Bool.not_eq_true, keyLt_iff] at hk ⊢
          omega
        · exact hle j hj
      · intro j hj
        rcases List.mem_cons.1 ((popLeast_perm hp).mem_iff.1 hj) with rfl | hj
        · simpa using hk
        · have := hle j hj
          simp only [← Bool.not_eq_true, keyLt_iff] at hk this ⊢
          omega

/-- A pop depends only on the keys of the nodes queued. -/
theorem popLeast_congr {nodes nodes' : Vector Node maxNodes} {q : List NodeIndex}
    (h : ∀ i ∈ q, nodes[i] = nodes'[i]) : popLeast nodes q = popLeast nodes' q := by
  induction q with
  | nil => rfl
  | cons a q ih =>
    rw [popLeast, popLeast, ih fun i hi => h i (List.mem_cons_of_mem _ hi)]
    split
    · rfl
    · rename_i j q' hp
      have hj : nodes[j] = nodes'[j] :=
        h j (List.mem_cons_of_mem _ ((popLeast_perm hp).mem_iff.2 (by simp)))
      have ha : nodes[a] = nodes'[a] := h a (by simp)
      have hk : keyLt nodes j a = keyLt nodes' j a := by simp only [keyLt, hj, ha]
      rw [hk]

/-- One pass of the loop: nothing for fewer than two nodes, else one merge. -/
theorem Build.mergeStep_cases (b : Build) :
    (b.queue.length < 2 ∧ b.mergeStep = b) ∨
    ∃ l q r rest, popLeast b.nodes b.queue = some (l, q) ∧ popLeast b.nodes q = some (r, rest) ∧
      b.queue.Perm (l :: r :: rest) ∧
      b.mergeStep = Build.mk (b.nodes.set (Fin.ofNat maxNodes b.next) (mergeNode b.nodes l r))
        (Fin.ofNat maxNodes b.next :: rest) (b.next + 1) := by
  match hq : b.queue with
  | [] => exact .inl ⟨by simp, by simp [Build.mergeStep, hq, popLeast]⟩
  | [a] => exact .inl ⟨by simp, by simp [Build.mergeStep, hq, popLeast]⟩
  | a :: c :: q0 =>
    obtain ⟨l, q, hl⟩ := popLeast_cons_isSome b.nodes a (c :: q0)
    have p1 := popLeast_perm hl
    match hq' : q with
    | [] => have := p1.length_eq; simp at this
    | d :: q1 =>
      obtain ⟨r, rest, hr⟩ := popLeast_cons_isSome b.nodes d q1
      exact .inr ⟨l, _, r, rest, hl, hr, p1.trans ((popLeast_perm hr).cons l), by
        simp [Build.mergeStep, hq, hl, hr]⟩

theorem ofNat_next {n : Nat} (h : n < maxNodes) : (Fin.ofNat maxNodes n).val = n :=
  Nat.mod_eq_of_lt h

/-- A merge leaves every node but the new one. -/
theorem Build.mergeStep_node {b : Build} (hn : b.next < maxNodes) {i : NodeIndex} (hi : i.val ≠ b.next) :
    b.mergeStep.nodes[i] = b.nodes[i] := by
  rcases b.mergeStep_cases with ⟨-, h⟩ | ⟨l, q, r, rest, -, -, -, h⟩
  · rw [h]
  · simp only [h]
    exact Vector.getElem_set_ne _ _ (by rw [ofNat_next hn]; exact fun h => hi h.symm)

/-- The queue holds only nodes already made, and there is room for the merges left. -/
structure Build.Fits (b : Build) : Prop where
  below : ∀ i ∈ b.queue, i.val < b.next
  nodup : b.queue.Nodup
  room : b.next + b.queue.length ≤ 512

theorem Build.Fits.next_lt {b : Build} (h : b.Fits) (h2 : 2 ≤ b.queue.length) : b.next < maxNodes := by
  have := h.room
  show b.next < 511
  omega

theorem Build.Fits.mergeStep {b : Build} (h : b.Fits) : b.mergeStep.Fits := by
  rcases b.mergeStep_cases with ⟨-, hs⟩ | ⟨l, q, r, rest, -, -, hp, hs⟩
  · rw [hs]; exact h
  · have hlen := hp.length_eq
    simp only [List.length_cons] at hlen
    have hn := ofNat_next (h.next_lt (by omega))
    have hb : ∀ i ∈ rest, i.val < b.next := fun i hi => h.below i (hp.mem_iff.2 (by simp [hi]))
    rw [hs]
    refine ⟨?_, ?_, ?_⟩
    · intro i hi
      rcases List.mem_cons.1 hi with rfl | hi
      · simp only; omega
      · have := hb i hi; simp only; omega
    · have := hp.nodup_iff.1 h.nodup
      simp only [List.nodup_cons, List.mem_cons, not_or] at this
      exact List.nodup_cons.2 ⟨fun hm => by have := hb _ hm; omega, this.2.2⟩
    · have := h.room
      simp only [List.length_cons]
      omega

theorem Build.Fits.mergeAll {b : Build} (h : b.Fits) (n : Nat) : (b.mergeAll n).Fits := by
  induction n generalizing b with
  | zero => exact h
  | succ n ih => exact ih h.mergeStep

theorem Build.start_fits (f : FreqTable) (old : Vector Node maxNodes) : (Build.start f old).Fits := by
  have hk := present_length_le f
  have hs := Forest.start f old
  refine ⟨?_, hs.nodup, by have := hs.count; omega⟩
  intro i hi
  simp only [Build.start, List.mem_map, List.mem_range] at hi
  obtain ⟨n, hn, rfl⟩ := hi
  rw [ofNat_next (show n < 511 by omega)]
  exact hn

/-- The nodes below `next` stay through any number of merges. -/
theorem Build.Fits.mergeAll_node {b : Build} (h : b.Fits) (n : Nat) {i : NodeIndex} (hi : i.val < b.next) :
    (b.mergeAll n).nodes[i] = b.nodes[i] := by
  induction n generalizing b with
  | zero => rfl
  | succ n ih =>
    have hle : b.next ≤ b.mergeStep.next := by
      rcases b.mergeStep_cases with ⟨-, hs⟩ | ⟨_, _, _, _, -, -, -, hs⟩
      · exact (congrArg Build.next hs).ge
      · rw [hs]; exact Nat.le_succ _
    rw [Build.mergeAll, ih h.mergeStep (by omega)]
    rcases b.mergeStep_cases with ⟨-, hs⟩ | ⟨_, _, _, _, -, -, hp, -⟩
    · rw [hs]
    · have := hp.length_eq
      simp only [List.length_cons] at this
      exact Build.mergeStep_node (h.next_lt (by omega)) (by omega)

/-- Two builds that agree on the queue, the index and every node already made. -/
structure Build.Agree (b b' : Build) : Prop where
  queue : b.queue = b'.queue
  next : b.next = b'.next
  nodes : ∀ i : NodeIndex, i.val < b.next → b.nodes[i] = b'.nodes[i]

theorem Build.Agree.mergeStep {b b' : Build} (h : Build.Agree b b') (hf : b.Fits) : Build.Agree b.mergeStep b'.mergeStep := by
  have c1 := popLeast_congr (q := b.queue) fun i hi => h.nodes i (hf.below i hi)
  rcases b.mergeStep_cases with ⟨hl, hs⟩ | ⟨l, q, r, rest, h1, h2, hp, hs⟩
  · rcases b'.mergeStep_cases with ⟨-, hs'⟩ | ⟨l, q, r, rest, h1, h2, hp, -⟩
    · rw [hs, hs']; exact h
    · have := hp.length_eq; rw [← h.queue] at this; simp at this; omega
  · have hlen := hp.length_eq
    simp only [List.length_cons] at hlen
    have hn := hf.next_lt (by omega)
    have hq : ∀ i ∈ q, i.val < b.next := fun i hi => hf.below i ((popLeast_perm h1).mem_iff.2 (by simp [hi]))
    have c2 := popLeast_congr (q := q) fun i hi => h.nodes i (hq i hi)
    have hl' := h.nodes l (hf.below l (hp.mem_iff.2 (by simp)))
    have hr' := h.nodes r (hf.below r (hp.mem_iff.2 (by simp)))
    have : b'.mergeStep = Build.mk (b'.nodes.set (Fin.ofNat maxNodes b.next) (mergeNode b'.nodes l r))
        (Fin.ofNat maxNodes b.next :: rest) (b.next + 1) := by
      simp only [Build.mergeStep, ← h.queue, ← c1, h1, ← c2, h2, ← h.next]
    have hm : mergeNode b'.nodes l r = mergeNode b.nodes l r := by
      simp only [mergeNode, hl', hr']
    rw [this, hs]
    refine ⟨rfl, rfl, ?_⟩
    intro i hi
    simp only at hi
    by_cases he : i.val = b.next
    · have hie : i = Fin.ofNat maxNodes b.next := Fin.ext (by rw [ofNat_next hn, he])
      subst hie
      simp [hm]
    · have ne : (Fin.ofNat maxNodes b.next).val ≠ i.val := by rw [ofNat_next hn]; omega
      have g1 := Vector.getElem_set_ne (xs := b.nodes) (x := mergeNode b.nodes l r) (Fin.ofNat maxNodes b.next).isLt i.isLt ne
      have g2 := Vector.getElem_set_ne (xs := b'.nodes) (x := mergeNode b'.nodes l r) (Fin.ofNat maxNodes b.next).isLt i.isLt ne
      refine Eq.trans g1 (Eq.trans ?_ g2.symm)
      exact h.nodes i (by omega)

theorem Build.Agree.mergeAll {b b' : Build} (h : Build.Agree b b') (hf : b.Fits) (n : Nat) : Build.Agree (b.mergeAll n) (b'.mergeAll n) := by
  induction n generalizing b b' with
  | zero => exact h
  | succ n ih => exact ih (h.mergeStep hf) hf.mergeStep

theorem Build.start_agree (f : FreqTable) (o o' : Vector Node maxNodes) : Build.Agree (Build.start f o) (Build.start f o') := by
  refine ⟨rfl, rfl, fun i hi => ?_⟩
  have hk := present_length_le f
  simp only [Build.start] at hi ⊢
  rw [placeLeaves_getElem _ _ _ (by show 0 + _ ≤ 511; omega), placeLeaves_getElem _ _ _ (by show 0 + _ ≤ 511; omega)]
  rw [dif_pos ⟨Nat.zero_le _, by omega⟩, dif_pos ⟨Nat.zero_le _, by omega⟩]

end Sys2Proof.Machine
end

