-- ==== Sys2Proof/Laws/Words.lean ====
section
/-!
SUPPORT. The bits of the two words the block lays out: a command word (R90) and STATUS (R26).
-/

namespace Sys2Proof

theorem encodeWord_getLsbD (i : Instr) (j : Nat) : (encodeWord i).getLsbD j =
    if j < 8 then i.opcode.getLsbD j else if j - 8 < 8 then i.symbol.getLsbD (j - 8) else false := by
  show (((0#16) ++ i.symbol ++ i.opcode : BitVec (16 + 8 + 8))).getLsbD j = _
  simp only [BitVec.getLsbD_append, BitVec.getLsbD_zero]

theorem opField_encodeWord (i : Instr) : opField (encodeWord i) = i.opcode := by
  apply BitVec.eq_of_getLsbD_eq
  intro j hj
  rw [opField, BitVec.getLsbD_extractLsb', encodeWord_getLsbD]
  simp [hj]

theorem symField_encodeWord (i : Instr) : symField (encodeWord i) = i.symbol := by
  apply BitVec.eq_of_getLsbD_eq
  intro j hj
  rw [symField, BitVec.getLsbD_extractLsb', encodeWord_getLsbD, if_neg (by omega), if_pos (by omega)]
  simp [hj]

theorem rsvField_encodeWord (i : Instr) : rsvField (encodeWord i) = 0 := by
  apply BitVec.eq_of_getLsbD_eq
  intro j hj
  rw [rsvField, BitVec.getLsbD_extractLsb', encodeWord_getLsbD, if_neg (by omega), if_neg (by omega)]
  simp

/-- A command word is its three fields. -/
theorem word_of_fields (w : Word) : w = rsvField w ++ symField w ++ opField w := by
  apply BitVec.eq_of_getLsbD_eq
  intro j hj
  show _ = ((rsvField w ++ symField w ++ opField w : BitVec (16 + 8 + 8))).getLsbD j
  unfold rsvField symField opField
  simp only [BitVec.getLsbD_append, BitVec.getLsbD_extractLsb']
  split
  · simp; omega
  · split
    · simp [show 8 + (j - 8) = j by omega]; omega
    · simp [show 16 + (j - 8 - 8) = j by omega]; omega

namespace Machine

theorem status_getLsbD (s : State) (j : Nat) : s.status.getLsbD j =
    if j < 8 then s.errField.getLsbD j else if j - 8 < 2 then s.treeState.code.getLsbD (j - 8)
    else if j - 8 - 2 < 1 then (BitVec.ofBool s.codesValid).getLsbD (j - 8 - 2)
    else if j - 8 - 2 - 1 < 1 then (BitVec.ofBool s.busy).getLsbD (j - 8 - 2 - 1)
    else if j - 8 - 2 - 1 - 1 < 1 then (BitVec.ofBool s.params.hasFreqCount).getLsbD (j - 8 - 2 - 1 - 1)
    else false := by
  show ((0#19) ++ BitVec.ofBool s.params.hasFreqCount ++ BitVec.ofBool s.busy ++ BitVec.ofBool s.codesValid
    ++ s.treeState.code ++ s.errField : BitVec (19 + 1 + 1 + 1 + 2 + 8)).getLsbD j = _
  simp only [BitVec.getLsbD_append, BitVec.getLsbD_zero]

end Machine

end Sys2Proof
end

