-- ==== Sys2Proof/Laws/PerInstr.lean ====
section
/-!
SUPPORT. Statements about every command as syntax, one lemma per constructor.
-/

namespace Sys2Proof.Laws.Fields

/-- R90, R94: the three fields of a command's word are its opcode, its symbol (0 where it takes none) and
0, and the opcode map names the command for them. -/
def Statement (i : Instr) : Prop :=
  opField (encodeWord i) = i.opcode ∧ symField (encodeWord i) = i.symbol ∧ rsvField (encodeWord i) = 0 ∧
    (i.takesSymbol = false → i.symbol = 0) ∧ instrOfOpcode i.opcode i.symbol = some i

theorem fields (i : Instr) (h : i.takesSymbol = false → i.symbol = 0)
    (hm : instrOfOpcode i.opcode i.symbol = some i) : Statement i :=
  ⟨opField_encodeWord i, symField_encodeWord i, rsvField_encodeWord i, h, hm⟩

theorem freqClear : Statement .freqClear := fields _ (fun _ => rfl) rfl
theorem freqCount : Statement .freqCount := fields _ (fun _ => rfl) rfl
theorem freqLoad : Statement .freqLoad := fields _ (fun _ => rfl) rfl
theorem freqStore : Statement .freqStore := fields _ (fun _ => rfl) rfl
theorem freqRead (sym : Byte) : Statement (.freqRead sym) := fields _ (fun h => Bool.noConfusion h) rfl
theorem buildTree : Statement .buildTree := fields _ (fun _ => rfl) rfl
theorem genCodes : Statement .genCodes := fields _ (fun _ => rfl) rfl
theorem codeRead (sym : Byte) : Statement (.codeRead sym) := fields _ (fun h => Bool.noConfusion h) rfl
theorem encode : Statement .encode := fields _ (fun _ => rfl) rfl
theorem decode : Statement .decode := fields _ (fun _ => rfl) rfl
theorem clearStatus : Statement .clearStatus := fields _ (fun _ => rfl) rfl

end Sys2Proof.Laws.Fields
end

