-- ==== Sys2Proof/Tests/Slice0.lean ====
section
/-!
SUPPORT. Tests: words of the opcode map, ill-formed commands, the vectors of spec/95_test_vectors.md, and
for every obligation with hypotheses a witness that meets them.
-/

open Sys2Proof Sys2Proof.Machine

namespace Sys2Proof.Tests

set_option Elab.async false

/-! ## Decoding: words written out from spec/30_encoding.md R90 and R94 -/

theorem test_decode_freqClear : decodeTableWord 32 0x00000001 = some .freqClear := by decide
theorem test_decode_freqCount : decodeTableWord 32 0x00000002 = some .freqCount := by decide
theorem test_decode_freqLoad : decodeTableWord 32 0x00000003 = some .freqLoad := by decide
theorem test_decode_freqStore : decodeTableWord 32 0x00000004 = some .freqStore := by decide
theorem test_decode_freqRead : decodeTableWord 32 0x00007205 = some (.freqRead 0x72) := by decide
theorem test_decode_buildTree : decodeTableWord 32 0x00000010 = some .buildTree := by decide
theorem test_decode_genCodes : decodeTableWord 32 0x00000011 = some .genCodes := by decide
theorem test_decode_codeRead : decodeTableWord 32 0x0000FF12 = some (.codeRead 0xFF) := by decide
theorem test_decode_encode : decodeTableWord 32 0x00000020 = some .encode := by decide
theorem test_decode_decode : decodeTableWord 32 0x00000021 = some .decode := by decide
theorem test_decode_clearStatus : decodeTableWord 32 0x00000030 = some .clearStatus := by decide

/-- The illegal words of spec/95_test_vectors.md section 2.7. -/
theorem test_decode_refuses : [0x00000000, 0x00000006, 0x00000022, 0x00000120, 0x0000FF11, 0x00010005].map
    (decodeTableWord 32) = List.replicate 6 none := by decide

/-- A build without FREQ_COUNT. -/
def small : Params := { Params.standard with hasFreqCount := false }

theorem test_wellFormed_refuses_freqCount : Instr.freqCount.wellFormed small = false := by decide
theorem test_decode_without_freqCount :
    decodeWord small 0x00000002 = .error .freqCountAbsent ∧ decodeWord small 0x00000003 = .ok .freqLoad := by
  decide

/-! ## States -/

def table (L : List (Byte × Word)) : FreqTable := L.foldl (fun f p => setEntry f p.1 p.2) FreqTable.zero

/-- After BUILD_TREE over the table. -/
def built (f : FreqTable) : State :=
  { State.reset with
    freq := f
    tree := buildTree f .zero
    treeState := builtState f }

/-- After GEN_CODES over the table. -/
def ready (f : FreqTable) : State :=
  { built f with
    codes := (codeTable (built f).treeState (built f).tree).getD CodeTable.absent
    codesValid := true }

/-- `bytes` at `src` as the source operand, and the destination operand `dst`. -/
def withSource (src : Word) (bytes : List Byte) (dst : Word) (s : State) : State :=
  { s with
    mem := s.mem.writeBytes src.toNat bytes
    src := src
    len := BitVec.ofNat 32 bytes.length
    dst := dst }

/-- `s` with the host's next action `h`. -/
def about (h : HostAction) (s : State) : State := { s with program := [h] }

def stateOf : Host.Outcome State Fault Refusal → Option State
  | .next t => some t
  | .fault _ => none
  | .refused _ => none

/-- The outcome is a next state of which `P` holds. -/
def leaves (o : Host.Outcome State Fault Refusal) (P : State → Bool) : Bool :=
  match stateOf o with
  | some t => P t
  | none => false

theorem leaves_spec {o : Host.Outcome State Fault Refusal} {P : State → Bool} (h : leaves o P = true) :
    ∃ t, o = .next t ∧ P t = true := by
  unfold leaves at h
  split at h
  · rename_i t ht
    refine ⟨t, ?_, h⟩
    cases o <;> simp_all [stateOf]
  · cases h

theorem leaves_err {o : Host.Outcome State Fault Refusal} {e : Option ErrCode}
    (h : leaves o (fun t => t.err == e) = true) : ∃ t, o = .next t ∧ t.err = e := by
  obtain ⟨t, h1, h2⟩ := leaves_spec h
  exact ⟨t, h1, eq_of_beq h2⟩

theorem built_inv (f : FreqTable) : (built f).Inv := by
  refine ⟨?_, rfl, fun c hc => ?_, fun w hw => ?_, rfl, fun h => Bool.noConfusion h, fun _ => ⟨rfl, _, rfl⟩,
    fun h => Bool.noConfusion h, fun c h => ?_⟩
  · show Params.standard.memBytes ≠ 0
    decide
  · cases hc
  · obtain rfl : w = (0, 0) := by simpa [built, State.reset, State.resetWith] using hw
    exact ⟨show 0 < Params.standard.memBytes.toNat by decide, Nat.one_pos⟩
  · simp [built, State.reset, State.resetWith] at h

theorem ready_inv (f : FreqTable) : (ready f).Inv := by
  have hb := built_inv f
  have ht : (built f).treeState ≠ .invalid := by
    show builtState f ≠ .invalid
    rcases builtState_cases f with ⟨-, h⟩ | ⟨_, -, h⟩ | ⟨-, h⟩ <;> simp [h]
  obtain ⟨codes, hc⟩ := hb.codeTable_isSome ht
  refine ⟨hb.params_wf, hb.mem_wf, hb.cells_inside, hb.windows_inside, rfl, fun _ => ht, hb.tree_current, fun _ => ?_,
    hb.err_recorded⟩
  show codeTable (built f).treeState (built f).tree = some ((codeTable (built f).treeState (built f).tree).getD _)
  rw [hc]; rfl

theorem withSource_inv {s : State} (h : s.Inv) {src dst : Word} {bytes : List Byte}
    (hb : src.toNat + bytes.length ≤ s.memBytes) : (withSource src bytes dst s).Inv := by
  refine ⟨h.params_wf, wf_writeBytes _ _ h.mem_wf, fun c hc => ?_, h.windows_inside, h.idle, h.codes_need_tree,
    h.tree_current, h.codes_current, h.err_recorded⟩
  rcases mem_cells_writeBytes hc with hc | ⟨-, h2⟩
  · exact h.cells_inside c hc
  · exact Nat.lt_of_lt_of_le h2 hb

/-- The state a command starts from: BUSY is 1 (R29). -/
def running (s : State) : State := { s with busy := true }

theorem running_inv {s : State} (h : s.Inv) : (running s).InvAtIssue := h.running s.program

/-- The tables of spec/95_test_vectors.md section 2. -/
def abra : FreqTable := table [(0x61, 5), (0x62, 2), (0x63, 1), (0x64, 1), (0x72, 2)]
def abc : FreqTable := table [(0x61, 1), (0x62, 1), (0x63, 1)]
def sixA : FreqTable := table [(0x61, 6)]

def abraText : List Byte := [0x61, 0x62, 0x72, 0x61, 0x63, 0x61, 0x64, 0x61, 0x62, 0x72, 0x61]
def abraBytes : List Byte := [0x61, 0, 0, 0, 5, 0x62, 0, 0, 0, 2, 0x63, 0, 0, 0, 1, 0x64, 0, 0, 0, 1, 0x72, 0, 0, 0, 2]
def abraPayload : List Byte := [0x69, 0xCF, 0x68, 0x07]

/-! ## Vectors of spec/95_test_vectors.md section 2, one step each -/

/-- 2.1: FREQ_CLEAR after a FREQ_COUNT of "abracadabra". -/
theorem test_freqClear : leaves (exec .freqClear (ready abra)) (fun t =>
    t.result == 0 && t.status == 0x1000 && entry t.freq 0x61 == 0) = true := by decide +kernel

/-- 2.1: "abracadabra" at 0. -/
theorem test_freqCount : leaves (exec .freqCount (withSource 0 abraText 0 State.reset)) (fun t =>
    t.result == 5 && t.status == 0x1000 && entry t.freq 0x61 == 5 && entry t.freq 0x62 == 2
      && entry t.freq 0x64 == 1 && entry t.freq 0x65 == 0) = true := by decide +kernel

/-- 2.1: SRC 65536, LEN 0 is in range; SRC 65537, LEN 0 is not. -/
theorem test_freqCount_range :
    leaves (exec .freqCount (withSource 65536 [] 0 State.reset)) (fun t => t.result == 0 && t.status == 0x1000) = true ∧
    leaves (exec .freqCount (withSource 65537 [] 0 State.reset)) (fun t => t.status == 0x1003) = true := by
  decide +kernel

/-- 2.1: a count of four bytes of FF. -/
theorem test_freqLoad : leaves (exec .freqLoad (withSource 0 [0x61, 0xFF, 0xFF, 0xFF, 0xFE] 0 (ready abra))) (fun t =>
    t.result == 1 && t.status == 0x1000 && entry t.freq 0x61 == 4294967294 && entry t.freq 0x62 == 0) = true := by
  decide +kernel

/-- 2.1: the format faults; record 0 fails before record 1. -/
theorem test_freqLoad_faults :
    leaves (exec .freqLoad (withSource 0 [0x61, 0, 0, 0, 6, 0x62] 0 (ready abra))) (fun t => t.status == 0x1010) = true ∧
    leaves (exec .freqLoad (withSource 0 [0x62, 0, 0, 0, 0, 0x61, 0, 0, 0, 1] 0 (ready abra)))
      (fun t => t.status == 0x1011) = true ∧
    leaves (exec .freqLoad (withSource 0 [0x61, 0, 0, 0, 1, 0x61, 0, 0, 0, 1] 0 (ready abra)))
      (fun t => t.status == 0x1012) = true := by decide +kernel

/-- 2.1, 1.3: the 25 bytes of the "abracadabra" table. -/
theorem test_freqStore : leaves (exec .freqStore (withSource 0 [] 0x2000 (ready abra))) (fun t =>
    t.result == 25 && t.status == 0x1700 && t.mem.readBytes 0x2000 25 == abraBytes) = true := by decide +kernel

/-- 2.1: 25 bytes do not fit at 65530; the empty table fits at 65536. -/
theorem test_freqStore_range :
    leaves (exec .freqStore (withSource 0 [] 65530 (ready abra))) (fun t => t.status == 0x1703) = true ∧
    leaves (exec .freqStore (withSource 0 [] 65536 State.reset)) (fun t => t.result == 0 && t.status == 0x1000) = true := by
  decide +kernel

/-- 2.1: FREQ_READ of r and of 0x00. -/
theorem test_freqRead : leaves (exec (.freqRead 0x72) (built abra)) (fun t => t.result == 2) = true ∧
    leaves (exec (.freqRead 0x00) (built abra)) (fun t => t.result == 0) = true := by decide +kernel

/-- 2.2: the merges of "abracadabra": nodes 5 to 8. -/
theorem test_buildTree : leaves (exec .buildTree { State.reset with freq := abra }) (fun t =>
    t.result == 9 && t.status == 0x1300 && t.tree.root == 8 && t.tree.nodes[5] == .internal 2 0x63 2 3
      && t.tree.nodes[6] == .internal 4 0x62 1 5 && t.tree.nodes[7] == .internal 6 0x62 4 6
      && t.tree.nodes[8] == .internal 11 0x61 0 7) = true := by decide +kernel

/-- 2.2: in "aabbbc" equal weights are told apart by the discriminator. -/
theorem test_buildTree_tie : leaves
    (exec .buildTree { State.reset with freq := table [(0x61, 2), (0x62, 3), (0x63, 1)] }) (fun t =>
    t.result == 5 && t.tree.nodes[3] == .internal 3 0x61 2 0 && t.tree.nodes[4] == .internal 6 0x61 3 1) = true := by
  decide +kernel

/-- 2.3: the codes of "abracadabra". -/
theorem test_genCodes : leaves (exec .genCodes (built abra)) (fun t =>
    t.result == 4 && t.status == 0x1700 && entry t.codes 0x61 == ⟨true, 1, 0⟩ && entry t.codes 0x72 == ⟨true, 2, 2⟩
      && entry t.codes 0x62 == ⟨true, 3, 6⟩ && entry t.codes 0x63 == ⟨true, 4, 14⟩
      && entry t.codes 0x64 == ⟨true, 4, 15⟩ && entry t.codes 0x7A == ⟨false, 0, 0⟩) = true := by decide +kernel

/-- 2.3: one symbol has the empty code; without a tree the fault is NOT_READY. -/
theorem test_genCodes_single :
    leaves (exec .genCodes (built sixA)) (fun t => t.result == 0 && t.status == 0x1600) = true ∧
    leaves (exec .genCodes State.reset) (fun t => t.status == 0x1002) = true := by decide +kernel

/-- 2.4: the code of c, and the absent z at the end of memory. -/
theorem test_codeRead :
    leaves (exec (.codeRead 0x63) (withSource 0 [] 0x100 (ready abra))) (fun t =>
      t.result == 0x104 && t.mem.read 0x100 == 0xE0) = true ∧
    leaves (exec (.codeRead 0x7A) (withSource 0 [] 65536 (ready abra))) (fun t => t.result == 0 && t.status == 0x1700) = true := by
  decide +kernel

/-- 2.5: "abracadabra", its payload directly after the source. -/
theorem test_encode : leaves (exec .encode (withSource 0 abraText 11 (ready abra))) (fun t =>
    t.result == 4 && t.status == 0x1700 && t.mem.readBytes 11 4 == abraPayload) = true := by decide +kernel

/-- 2.5: a symbol with no code, and a payload that meets its source. -/
theorem test_encode_faults :
    leaves (exec .encode (withSource 0 [0x61, 0x62, 0x7A, 0x63] 0x1000 (ready abc))) (fun t => t.status == 0x1730) = true ∧
    leaves (exec .encode (withSource 0 abraText 2 (ready abra))) (fun t => t.status == 0x1704) = true := by
  decide +kernel

/-- 2.6: the padding bits are ignored. -/
theorem test_decode : leaves (exec .decode (withSource 0x1000 [0xB7, 0x05] 0x3000 (ready abc))) (fun t =>
    t.result == 3 && t.status == 0x1700 && t.mem.readBytes 0x3000 3 == [0x61, 0x62, 0x63]) = true := by decide +kernel

/-- 2.6: bits that end in mid-traversal, and six bytes from a SINGLE tree. -/
theorem test_decode_ends :
    leaves (exec .decode (withSource 0x1000 [0x80, 0x01] 0x3000 (ready abc))) (fun t => t.status == 0x1724) = true ∧
    leaves (exec .decode (withSource 0x4000 [0x08] 0x3FFA (ready sixA))) (fun t =>
      t.result == 6 && t.status == 0x1600 && t.mem.readBytes 0x3FFA 6 == List.replicate 6 0x61) = true := by
  decide +kernel

/-- 43_control.md R250: STATUS 0x1724 becomes 0x1700. -/
theorem test_clearStatus : leaves (exec .clearStatus { ready abc with err := some .fmtMidTraversal })
    (fun t => t.status == 0x1700) = true := by decide +kernel

/-- 2.7: an illegal word faults BAD_COMMAND; then GEN_CODES is ignored. -/
theorem test_issue_faults :
    leaves (step (State.reset.withFetchWord 32 0x00000120)) (fun t => t.status == 0x1001) = true ∧
    leaves (step ({ State.reset with err := some .badCommand }.withFetchWord 32 0x00000011))
      (fun t => t.status == 0x1001) = true := by decide +kernel

/-! ## Witnesses: states and operands that meet the hypotheses of the obligations -/

theorem present_table : (present abra).length = 5 ∧ (present abc).length = 3 ∧ (present sixA).length = 1 := by
  decide +kernel

theorem witness_StepRunsTheDecodedCommand :
    (about (.wr .cmd 0x10) State.reset).program = .wr .cmd 0x10 :: [] ∧ (about (.wr .cmd 0x10) State.reset).err = none ∧
    decodeWord (about (.wr .cmd 0x10) State.reset).params 0x10 = .ok .buildTree := ⟨rfl, rfl, by decide⟩

theorem witness_IllegalWordFaultsAndChangesNothingElse :
    (about (.wr .cmd 0x06) State.reset).program = .wr .cmd 0x06 :: [] ∧ (about (.wr .cmd 0x06) State.reset).err = none ∧
    decodeWord (about (.wr .cmd 0x06) State.reset).params 0x06 = .error .reservedOpcode := ⟨rfl, rfl, by decide⟩

theorem witness_FaultedBlockIgnoresOtherWords :
    (about (.wr .cmd 0x11) (raise .badCommand State.reset)).program = .wr .cmd 0x11 :: [] ∧
    (about (.wr .cmd 0x11) (raise .badCommand State.reset)).err ≠ none ∧ (0x11 : Word) ≠ 0x30 :=
  ⟨rfl, by decide, by decide⟩

theorem witness_ClearStatusAcknowledges :
    (about (.wr .cmd 0x30) (raise .badCommand State.reset)).program = .wr .cmd 0x00000030 :: [] ∧
    (about (.wr .cmd 0x30) State.reset).program = .wr .cmd 0x00000030 :: [] ∧
    ∀ w ∈ ([0x00000130, 0x80000030] : List Word), (about (.wr .cmd w) State.reset).program = .wr .cmd w :: [] ∧
      (about (.wr .cmd w) State.reset).err = none ∧ opField w = 0x30 ∧ w ≠ 0x00000030 :=
  ⟨rfl, rfl, fun w hw => ⟨rfl, rfl, by rcases List.mem_pair.1 hw with rfl | rfl <;> decide⟩⟩

theorem witness_IdleBlockHoldsItsState : State.reset.program = [] := rfl

theorem witness_HostAccessesRegisters :
    (∀ r, (about (.rd r) State.reset).program = .rd r :: []) ∧
    (∀ v, (about (.wr .src v) State.reset).program = .wr .src v :: [] ∧
      (about (.wr .len v) State.reset).program = .wr .len v :: [] ∧
      (about (.wr .dst v) State.reset).program = .wr .dst v :: []) ∧
    ∀ r ∈ ([.result, .status, .reserved18, .reserved1C] : List Reg), ∀ v,
      (about (.wr r v) State.reset).program = .wr r v :: [] :=
  ⟨fun _ => rfl, fun _ => ⟨rfl, rfl, rfl⟩, fun _ _ _ => rfl⟩

/-- The last byte of memory, the first address past it, and an empty and a nonempty read at the end. -/
theorem witness_HostAccessesBufferMemory :
    ((about (.memw 65535 [7]) State.reset).program = .memw 65535 [7] :: [] ∧
      (65535 : Word).toNat + [7].length ≤ State.reset.memBytes) ∧
    ((about (.memw 65536 [7]) State.reset).program = .memw 65536 [7] :: [] ∧ [(7 : Byte)] ≠ [] ∧
      State.reset.memBytes < (65536 : Word).toNat + [7].length) ∧
    ((about (.memr 65536 0) State.reset).program = .memr 65536 0 :: [] ∧
      (65536 : Word).toNat + 0 ≤ State.reset.memBytes) ∧
    (about (.memr 65535 2) State.reset).program = .memr 65535 2 :: [] ∧ 0 < 2 ∧
      State.reset.memBytes < (65535 : Word).toNat + 2 :=
  ⟨⟨rfl, by decide⟩, ⟨rfl, by decide, by decide⟩, ⟨rfl, by decide⟩, rfl, by decide, by decide⟩

theorem witness_ResetSetsEveryStatedValue : (about .reset (ready abra)).program = .reset :: [] := rfl

theorem witness_AfterResetATreeMustBeBuilt : (about .reset (ready abc)).program = .reset :: [] := rfl

/-- A fault of each kind that the statements about faults tell apart. -/
theorem witness_FaultCodesAndWhoRaisesThem : State.reset.err = none ∧
    (∃ t, exec .genCodes State.reset = .next t ∧ t.err = some .notReady) ∧
    ∃ t, exec .freqCount (withSource 65537 [] 0 State.reset) = .next t ∧ t.err = some .memRange :=
  ⟨rfl, leaves_err (by decide +kernel), leaves_err (by decide +kernel)⟩

theorem witness_FaultEntry : (withSource 0 [0x7A] 0 (ready abc)).err = none ∧
    ∃ t, exec .encode (withSource 0 [0x7A] 0 (ready abc)) = .next t ∧ t.err = some .encUnknownSymbol :=
  ⟨rfl, leaves_err (by decide +kernel)⟩

theorem witness_FaultLeavesTheTables : (withSource 0 [0x61] 0 (ready abc)).err = none ∧
    (∃ t, exec .freqLoad (withSource 0 [0x61] 0 (ready abc)) = .next t ∧ t.err = some .fmtFreqLength) ∧
    ∃ t, exec .freqLoad (withSource 65536 [0x61] 0 (ready abc)) = .next t ∧ t.err = some .memRange :=
  ⟨rfl, leaves_err (by decide +kernel), leaves_err (by decide +kernel)⟩

theorem witness_FaultLeavesMemory : (withSource 0 [0x7A] 65535 (ready abc)).err = none ∧
    (withSource 0 [0x7A] 65535 (ready abc)).sourceInRange = true ∧
    (∃ t, exec .encode (withSource 0 [0x7A] 65535 (ready abc)) = .next t ∧ t.err = some .encUnknownSymbol) ∧
    ∃ t, exec .decode State.reset = .next t ∧ t.err = some .notReady :=
  ⟨rfl, by decide, leaves_err (by decide +kernel), leaves_err (by decide +kernel)⟩

theorem witness_FaultsAreRecordedOnceAndSticky :
    (∃ t, step (about (.wr .cmd 0x11) State.reset) = .next t ∧ t.err = some .notReady) ∧
    (∃ t, step (about (.wr .cmd 0x30) (raise .notReady State.reset)) = .next t ∧ t.err = none) ∧
    ∃ t, step (about .reset (raise .notReady State.reset)) = .next t ∧ t.err = none :=
  ⟨leaves_err (by decide +kernel), leaves_err (by decide +kernel), leaves_err (by decide +kernel)⟩

/-- The empty range at the top end, and all of memory. -/
theorem witness_FreqCountCountsTheBuffer :
    (withSource 65536 [] 0 State.reset).srcAddr + (withSource 65536 [] 0 State.reset).srcLen
      ≤ (withSource 65536 [] 0 State.reset).memBytes ∧
    ({ State.reset with len := 65536 } : State).srcAddr + ({ State.reset with len := 65536 } : State).srcLen
      ≤ ({ State.reset with len := 65536 } : State).memBytes := by decide

theorem witness_FreqLoadAcceptsExactlySerializedTables :
    (withSource 0 abraBytes 0 State.reset).srcAddr + (withSource 0 abraBytes 0 State.reset).srcLen
      ≤ (withSource 0 abraBytes 0 State.reset).memBytes ∧
    (withSource 0 abraBytes 0 State.reset).source = serFreq abra ∧
    ∀ f : FreqTable, (withSource 0 [0x61] 0 State.reset).source ≠ serFreq f := by
  refine ⟨by decide, by decide +kernel, fun f h => ?_⟩
  have := congrArg List.length h
  rw [source_length, serFreq_length] at this
  change 1 = 5 * (present f).length at this
  omega

theorem witness_FreqLoadFaultsAtTheFirstBadRecord :
    (withSource 65532 [1, 2, 3, 4] 0 State.reset).srcLen % 5 ≠ 0 ∧
    ([(0x61, 1)] : List (Byte × Word)).Pairwise (fun p q => p.1.toNat < q.1.toNat) ∧
    (∀ p ∈ ([(0x61, 1)] : List (Byte × Word)), p.2 ≠ 0) ∧
    (withSource 0 [0x61, 0, 0, 0, 1, 0x61, 0, 0, 0, 0] 0 State.reset).source
      = (([(0x61, 1)] : List (Byte × Word)).flatMap fun p => p.1 :: be32 p.2) ++ 0x61 :: be32 0 ++ [] ∧
    (withSource 0 [0x61, 0, 0, 0, 1, 0x61, 0, 0, 0, 1] 0 State.reset).source
      = (([(0x61, 1)] : List (Byte × Word)).flatMap fun p => p.1 :: be32 p.2) ++ 0x61 :: be32 1 ++ [] ∧
    ((0x61 : Byte), (1 : Word)).1.toNat ≤ (0x61 : Byte).toNat :=
  ⟨by decide, List.pairwise_singleton _ _, by simp, by decide +kernel, by decide +kernel, by decide⟩

/-- The 25 bytes end exactly at 65536. -/
theorem witness_FreqStoreWritesTheSerializedTable :
    (withSource 0 [] 65511 (ready abra)).dstAddr + (serFreq (withSource 0 [] 65511 (ready abra)).freq).length
      ≤ (withSource 0 [] 65511 (ready abra)).memBytes := by decide +kernel

theorem witness_TableRoundTrip :
    (∃ t u : State, (withSource 0 [] 0x2000 (ready abra)).err = none ∧
      exec .freqStore (withSource 0 [] 0x2000 (ready abra)) = .next t ∧ t.err = none ∧
      u.source = t.mem.readBytes (withSource 0 [] 0x2000 (ready abra)).dstAddr t.result.toNat ∧
      u.srcAddr + u.srcLen ≤ u.memBytes) ∧
    ∃ v w : State, (withSource 0 abraBytes 0 State.reset).err = none ∧
      exec .freqLoad (withSource 0 abraBytes 0 State.reset) = .next v ∧ v.err = none ∧ w.freq = v.freq ∧
      w.dstAddr + (withSource 0 abraBytes 0 State.reset).srcLen ≤ w.memBytes := by
  obtain ⟨t, h1, h2⟩ := leaves_spec (show leaves (exec .freqStore (withSource 0 [] 0x2000 (ready abra))) (fun t =>
    t.err == none && (withSource 0 abraBytes 0 State.reset).source == t.mem.readBytes 0x2000 t.result.toNat) = true by
      decide +kernel)
  obtain ⟨v, h3, h4⟩ := leaves_err (e := none)
    (show leaves (exec .freqLoad (withSource 0 abraBytes 0 State.reset)) _ = true by decide +kernel)
  simp only [Bool.and_eq_true] at h2
  exact ⟨⟨t, withSource 0 abraBytes 0 State.reset, rfl, h1, eq_of_beq h2.1, eq_of_beq h2.2, by decide⟩,
    v, { State.reset with freq := v.freq, dst := 65511 }, rfl, h3, h4, rfl,
    show (65511 : Word).toNat + (25 : Word).toNat ≤ (65536 : Word).toNat by decide⟩

theorem witness_RangeFaultsOfTheTableCommands :
    (withSource 65537 [] 0 State.reset).memBytes
      < (withSource 65537 [] 0 State.reset).srcAddr + (withSource 65537 [] 0 State.reset).srcLen ∧
    (withSource 0 [] 65512 (ready abra)).memBytes
      < (withSource 0 [] 65512 (ready abra)).dstAddr + (serFreq (withSource 0 [] 65512 (ready abra)).freq).length ∧
    (withSource 0 [] 65536 (ready abra)).codesValid = true ∧
    (withSource 0 [] 65536 (ready abra)).memBytes < (withSource 0 [] 65536 (ready abra)).dstAddr
      + ((entry (withSource 0 [] 65536 (ready abra)).codes 0x63).len.toNat + 7) / 8 := by
  decide +kernel

theorem witness_BuildTreeOfFewSymbols : (∀ x, entry State.reset.freq x = 0) ∧ entry (ready sixA).freq 0x61 ≠ 0 ∧
    ∀ y, y ≠ 0x61 → entry (ready sixA).freq y = 0 := by
  refine ⟨fun x => entry_replicate _ x, by decide +kernel, fun y hy => ?_⟩
  show entry (setEntry FreqTable.zero 0x61 6) y = 0
  rw [entry_setEntry, if_neg hy, entry_freqZero]

theorem witness_BuildTreeOfManySymbols : 3 = (allSymbols.filter fun x => entry abc x ≠ 0).length ∧ 2 ≤ 3 := by
  decide +kernel

/-- The last leaf, the first and the last internal node. -/
theorem witness_NodeArrayIsAStrictBinaryTree : 2 ≤ (present abra).length ∧ 4 < (present abra).length ∧
    ((present abra).length ≤ 5 ∧ 5 < 2 * (present abra).length - 1) ∧
    (present abra).length ≤ 8 ∧ 8 < 2 * (present abra).length - 1 := by decide +kernel

theorem witness_RootWeightIsTheSumOfTheCounts : 1 ≤ (present sixA).length ∧ 1 ≤ (present abra).length := by
  decide +kernel

theorem witness_PopsTakeTheLeastKey :
    popLeast (Build.start abc Tree.zero.nodes).nodes (Build.start abc Tree.zero.nodes).queue = some (0, [1, 2]) ∧
    (Build.start abc Tree.zero.nodes).next < maxNodes ∧
    popLeast (Build.start abc Tree.zero.nodes).nodes [1, 2] = some (1, [2]) := by decide +kernel

theorem witness_TreeDependsOnTheTableAlone : 1 ≤ (present abc).length ∧
    (4 : NodeIndex).val < (buildTree abc .zero).nodeCount.val := by decide +kernel

theorem witness_CommandsNeedTheirTreeOrCodes : State.reset.treeState = .invalid ∧ State.reset.codesValid = false :=
  ⟨rfl, rfl⟩

/-- An EMPTY, a SINGLE and a MULTI tree. -/
theorem witness_GenCodesDerivesTheCodeTable :
    ((running (built FreqTable.zero)).InvAtIssue ∧ (running (built FreqTable.zero)).treeState = .empty) ∧
    ((running (built sixA)).InvAtIssue ∧ (running (built sixA)).treeState = .single) ∧
    (running (built abra)).InvAtIssue ∧ (running (built abra)).treeState = .multi :=
  ⟨⟨running_inv (built_inv _), by decide +kernel⟩, ⟨running_inv (built_inv _), by decide +kernel⟩,
    running_inv (built_inv _), by decide +kernel⟩

theorem ready_multi : (ready abra).treeState = .multi ∧ (ready abra).codesValid = true ∧
    (entry (ready abra).codes 0x63).present = true ∧ (entry (ready abra).codes 0x61).present = true := by
  decide +kernel

theorem witness_CodesArePathsOfTheTree : (ready abra).Inv ∧ (ready abra).treeState = .multi ∧
    (ready abra).codesValid = true ∧ (entry (ready abra).codes 0x63).present = true ∧
    [true, true] <+: (entry (ready abra).codes 0x63).code ∧ [true, true] ≠ (entry (ready abra).codes 0x63).code :=
  ⟨ready_inv _, ready_multi.1, ready_multi.2.1, ready_multi.2.2.1, by decide +kernel, by decide +kernel⟩

theorem witness_CodesArePrefixFree : (ready abra).Inv ∧ (ready abra).treeState = .multi ∧
    (ready abra).codesValid = true ∧ (entry (ready abra).codes 0x63).present = true ∧
    (entry (ready abra).codes 0x63).code <+: (entry (ready abra).codes 0x63).code ∧
    (∀ b ∈ abraText, (entry (ready abra).codes b).present = true) :=
  ⟨ready_inv _, ready_multi.1, ready_multi.2.1, ready_multi.2.2.1, List.prefix_rfl, by decide +kernel⟩

theorem witness_CodeLengthsMeetKraftEquality : (ready abra).Inv ∧ (ready abra).treeState = .multi ∧
    (ready abra).codesValid = true ∧ (List.replicate 255 true).length = 255 ∧
    (entry (ready abra).codes 0x64).present = true ∧ (entry (ready abra).codes 0x64).code <+: List.replicate 255 true :=
  ⟨ready_inv _, ready_multi.1, ready_multi.2.1, List.length_replicate .., by decide +kernel, by decide +kernel⟩

theorem witness_CodeMapDependsOnTheTableAlone : (ready abra).Inv ∧ (withSource 0 [7] 9 (ready abra)).Inv ∧
    (ready abra).codesValid = true ∧ (withSource 0 [7] 9 (ready abra)).codesValid = true ∧
    (ready abra).freq = (withSource 0 [7] 9 (ready abra)).freq :=
  ⟨ready_inv _, withSource_inv (ready_inv _) (by decide), rfl, rfl, rfl⟩

theorem witness_CodeLengthsAreBounded : (ready sixA).Inv ∧ (ready sixA).codesValid = true ∧
    (entry (ready sixA).codes 0x61).present = true := ⟨ready_inv _, rfl, by decide +kernel⟩

/-- One byte at the last address, and no byte past it for an absent symbol. -/
theorem witness_CodeReadWritesTheCode :
    (withSource 0 [] 65535 (ready abra)).codesValid = true ∧
    (withSource 0 [] 65535 (ready abra)).dstAddr
      + ((entry (withSource 0 [] 65535 (ready abra)).codes 0x63).len.toNat + 7) / 8
      ≤ (withSource 0 [] 65535 (ready abra)).memBytes ∧
    (withSource 0 [] 65536 (ready abra)).dstAddr
      + ((entry (withSource 0 [] 65536 (ready abra)).codes 0x7A).len.toNat + 7) / 8
      ≤ (withSource 0 [] 65536 (ready abra)).memBytes := ⟨rfl, by decide +kernel, by decide +kernel⟩

/-- The payload directly after the source, and ending exactly at 65536 (section 2.5). -/
theorem witness_EncodeWritesThePayload : ∀ s ∈ [withSource 0 abraText 11 (ready abra), withSource 0 abraText 65532 (ready abra)],
    s.codesValid = true ∧ s.treeState ≠ .empty ∧ s.srcAddr + s.srcLen ≤ s.memBytes ∧
    (∀ b ∈ s.source, (entry s.codes b).present = true) ∧
    abraPayload = pack (s.source.flatMap fun b => (entry s.codes b).code) ∧
    s.dstAddr + abraPayload.length ≤ s.memBytes ∧ s.srcAddr + s.srcLen ≤ s.dstAddr := by decide +kernel

theorem witness_EncodeFaultsInOrder :
    ((withSource 65536 [0x61] 0 (ready abc)).codesValid = true ∧
      (withSource 65536 [0x61] 0 (ready abc)).treeState ≠ .invalid ∧
      (withSource 65536 [0x61] 0 (ready abc)).memBytes
        < (withSource 65536 [0x61] 0 (ready abc)).srcAddr + (withSource 65536 [0x61] 0 (ready abc)).srcLen) ∧
    ((withSource 0 [0x61, 0x7A] 0 (ready abc)).codesValid = true ∧
      ∃ b ∈ (withSource 0 [0x61, 0x7A] 0 (ready abc)).source,
        (entry (withSource 0 [0x61, 0x7A] 0 (ready abc)).codes b).present = false) ∧
    (∀ s ∈ [withSource 0 abraText 65533 (ready abra), withSource 0 abraText 10 (ready abra)],
      s.treeState ≠ .empty ∧ s.srcAddr + s.srcLen ≤ s.memBytes ∧
      (∀ b ∈ s.source, (entry s.codes b).present = true) ∧
      abraPayload = pack (s.source.flatMap fun b => (entry s.codes b).code)) ∧
    65536 < 65533 + abraPayload.length ∧ 0 < 10 + abraPayload.length ∧ 10 < 0 + abraText.length := by decide +kernel

theorem witness_EmptyTreeCodesOnlyEmptyData :
    (∀ s ∈ [withSource 65536 [] 65536 (ready FreqTable.zero), withSource 0 [0x61] 0 (ready FreqTable.zero)],
      s.treeState = .empty ∧ s.codesValid = true ∧ s.srcAddr + s.srcLen ≤ s.memBytes ∧ s.dstAddr ≤ s.memBytes ∧
      (s.srcLen = 0 ∨ 0 < s.srcLen)) ∧
    (withSource 65536 [] 65537 (ready FreqTable.zero)).srcLen = 0 ∧
      (withSource 65536 [] 65537 (ready FreqTable.zero)).memBytes
        < (withSource 65536 [] 65537 (ready FreqTable.zero)).dstAddr := by decide +kernel

theorem witness_UnpackTakesTheMeaningfulBits : ([0xB0] : List Byte) ≠ [] ∧ 1 ≤ (0x01 : Byte).toNat ∧
    (0x08 : Byte).toNat ≤ 8 := by decide

theorem witness_DecodeFaultsOnAMalformedTrailer :
    (ready sixA).treeState = .single ∧ (ready abc).treeState = .multi ∧
    (withSource 65536 [] 0 (ready abc)).srcAddr + (withSource 65536 [] 0 (ready abc)).srcLen
      ≤ (withSource 65536 [] 0 (ready abc)).memBytes ∧
    (withSource 0 [0x00, 0x00] 0 (ready abc)).source = [0x00] ++ [0x00] ∧ (0x00 : Byte).toNat = 0 ∧
    (withSource 0 [0x00, 0x09] 0 (ready abc)).source = [0x00] ++ [0x09] ∧ 8 < (0x09 : Byte).toNat ∧
    (withSource 0 [0x05] 0 (ready sixA)).source = [] ++ [0x05] ∧ (0x05 : Byte).toNat ≠ 8 := by decide +kernel

/-- What DecodeWithASingleSymbol asks of the payload `08`, with six bytes to write. -/
theorem single_payload (dst : Word) : (running (withSource 0x4000 [0x08] dst (ready sixA))).InvAtIssue ∧
    (running (withSource 0x4000 [0x08] dst (ready sixA))).treeState = .single ∧
    (entry (running (withSource 0x4000 [0x08] dst (ready sixA))).freq 0x61).toNat = 6 ∧
    (running (withSource 0x4000 [0x08] dst (ready sixA))).source = [0x08] ∧
    (running (withSource 0x4000 [0x08] dst (ready sixA))).srcAddr
      + (running (withSource 0x4000 [0x08] dst (ready sixA))).srcLen ≤ 65536 :=
  ⟨running_inv (withSource_inv (ready_inv _) (by decide)), show builtState sixA = .single by decide +kernel,
    show (entry sixA 0x61).toNat = 6 by decide +kernel, by rfl,
    show (0x4000 : Word).toNat + (1 : Word).toNat ≤ 65536 by decide⟩

/-- One meaningful bit; six bytes that would end past memory, that end on the payload and that start on it;
and six that end exactly before it. -/
theorem witness_DecodeWithASingleSymbol :
    ((running (withSource 0x4000 [0x80, 0x01] 0 (ready sixA))).InvAtIssue ∧
      unpack (running (withSource 0x4000 [0x80, 0x01] 0 (ready sixA))).source = .ok [true] ∧ [true] ≠ []) ∧
    65536 < (65531 : Word).toNat + 6 ∧
    (0x4000 < (0x3FFB : Word).toNat + 6 ∧ (0x3FFB : Word).toNat < 0x4000 + 1) ∧
    (0x4000 < (0x4000 : Word).toNat + 6 ∧ (0x4000 : Word).toNat < 0x4000 + 1) ∧
    ∀ dst ∈ ([65531, 0x3FFB, 0x4000, 0x3FFA] : List Word),
      (running (withSource 0x4000 [0x08] dst (ready sixA))).InvAtIssue ∧
      entry (running (withSource 0x4000 [0x08] dst (ready sixA))).freq 0x61 ≠ 0 :=
  ⟨⟨running_inv (withSource_inv (ready_inv _) (by decide)), by rfl, by decide⟩, by decide, by decide, by decide,
    fun dst _ => ⟨(single_payload dst).1, show entry sixA 0x61 ≠ 0 by decide +kernel⟩⟩

/-- The payload `80 01` with the "abc" tree: the first bit of the code of a (section 2.6). -/
theorem witness_DecodeFaultsMidTraversal : ∃ s g : State, s.InvAtIssue ∧ s.treeState = .multi ∧
    exec .genCodes s = .next g ∧ s.srcAddr + s.srcLen ≤ s.memBytes ∧
    (∀ b ∈ ([0x61] : List Byte), (entry g.codes b).present = true) ∧
    (entry g.codes 0x61).code = [true] ++ [false] ∧
    unpack s.source = .ok ((([] : List Byte).flatMap fun b => (entry g.codes b).code) ++ [true]) := by
  obtain ⟨g, h1, h2⟩ := leaves_spec (show leaves
    (exec .genCodes (running (withSource 0x1000 [0x80, 0x01] 0x3000 (built abc))))
    (fun g => (entry g.codes 0x61).present && (entry g.codes 0x61).code == [true, false]) = true by decide +kernel)
  simp only [Bool.and_eq_true] at h2
  exact ⟨_, g, running_inv (withSource_inv (built_inv _) (by decide)), by decide +kernel, h1, by decide,
    fun b hb => List.mem_singleton.1 hb ▸ h2.1, eq_of_beq h2.2, rfl⟩

/-- `B0 05` at 0x1000 with the "abc" tree: three bytes that would end past memory, that start on the payload's
last byte, that end on its first, and that end exactly at 65536; and `08`, which decodes to nothing. -/
theorem witness_DecodeWritesTheSymbolsOfTheCodes :
    65536 < (65534 : Word).toNat + 3 ∧
    (0x1000 < (0x1001 : Word).toNat + 3 ∧ (0x1001 : Word).toNat < 0x1000 + 2) ∧
    (0x1000 < (0xFFE : Word).toNat + 3 ∧ (0xFFE : Word).toNat < 0x1000 + 2) ∧
    ((65533 : Word).toNat + 3 ≤ 65536 ∧ 0x1000 + 2 ≤ (65533 : Word).toNat) ∧
    (∀ dst ∈ ([65534, 0x1001, 0xFFE, 65533] : List Word), ∃ s g : State, s.InvAtIssue ∧ s.treeState = .multi ∧
      exec .genCodes s = .next g ∧ s.srcAddr = 0x1000 ∧ s.srcLen = 2 ∧ s.dstAddr = dst.toNat ∧ s.memBytes = 65536 ∧
      ([0x61, 0x62, 0x63].all fun b => (entry g.codes b).present) = true ∧
      unpack s.source = .ok ([0x61, 0x62, 0x63].flatMap fun b => (entry g.codes b).code)) ∧
    unpack (withSource 0x1000 [0x08] 65536 (built abc)).source
      = .ok (([] : List Byte).flatMap fun b => (entry (ready abc).codes b).code) := by
  have hg : (([65534, 0x1001, 0xFFE, 65533] : List Word).all fun dst =>
      leaves (exec .genCodes (running (withSource 0x1000 [0xB0, 0x05] dst (built abc)))) fun g =>
        ([0x61, 0x62, 0x63].all fun b => (entry g.codes b).present) &&
        [true, false, true, true, false] == ([0x61, 0x62, 0x63].flatMap fun b => (entry g.codes b).code)) = true := by
    decide +kernel
  have hs : ∀ s ∈ ([65534, 0x1001, 0xFFE, 65533] : List Word).map fun dst =>
      running (withSource 0x1000 [0xB0, 0x05] dst (built abc)), s.treeState = .multi ∧ s.srcAddr = 0x1000 ∧
        s.srcLen = 2 ∧ s.memBytes = 65536 ∧ s.source = [0xB0, 0x05] := by decide +kernel
  refine ⟨by decide, by decide, by decide, by decide, fun dst h => ?_, rfl⟩
  obtain ⟨g, h1, h2⟩ := leaves_spec (List.all_eq_true.1 hg dst h)
  simp only [Bool.and_eq_true] at h2
  obtain ⟨s1, s2, s3, s4, s5⟩ := hs _ (List.mem_map_of_mem h)
  refine ⟨running (withSource 0x1000 [0xB0, 0x05] dst (built abc)), g,
    running_inv (withSource_inv (built_inv _) (by decide)), s1, h1, s2, s3, rfl, s4, h2.1, ?_⟩
  rw [s5]
  exact congrArg Except.ok (eq_of_beq h2.2)

theorem witness_DecodeIgnoresThePadding : 1 ≤ (0x05 : Byte).toNat ∧ (0x05 : Byte).toNat ≤ 8 ∧
    (∀ i, 8 - (0x05 : Byte).toNat ≤ i → (0xB0 : Byte).getLsbD i = (0xB7 : Byte).getLsbD i) ∧
    (running (withSource 0 [0xB0, 0x05] 2 (ready abc))).InvAtIssue ∧
    (running (withSource 0 [0xB0, 0x05] 2 (ready abc))).source = [] ++ [0xB0, 0x05] ∧
    (running (withSource 0 [0xB7, 0x05] 2 (ready abc))).source = [] ++ [0xB7, 0x05] ∧
    running (withSource 0 [0xB7, 0x05] 2 (ready abc))
      = { running (withSource 0 [0xB0, 0x05] 2 (ready abc)) with
          mem := (running (withSource 0 [0xB7, 0x05] 2 (ready abc))).mem } := by
  refine ⟨by decide, by decide, fun i hi => ?_, running_inv (withSource_inv (ready_inv _) (by decide)),
    by decide +kernel, by decide +kernel, rfl⟩
  by_cases h : i < 8
  · have : ∀ i < 8, 8 - (0x05 : Byte).toNat ≤ i → (0xB0 : Byte).getLsbD i = (0xB7 : Byte).getLsbD i := by decide
    exact this i h hi
  · rw [BitVec.getLsbD_of_ge _ _ (by omega), BitVec.getLsbD_of_ge _ _ (by omega)]

/-- "abc" encoded, and decoded in a state that only loaded the table and built the tree. -/
theorem witness_EncodeThenDecodeGivesTheDataBack : ∃ s t u : State, s.InvAtIssue ∧ s.treeState = .multi ∧ s.err = none ∧
    exec .encode s = .next t ∧ t.err = none ∧ u.InvAtIssue ∧ u.treeState ≠ .invalid ∧ u.freq = s.freq ∧
    u.source = t.mem.readBytes s.dstAddr t.result.toNat ∧ u.srcAddr + u.srcLen ≤ u.memBytes ∧
    u.dstAddr + s.srcLen ≤ u.memBytes ∧ u.srcAddr + u.srcLen ≤ u.dstAddr := by
  obtain ⟨t, h1, h2⟩ := leaves_spec (show leaves
    (exec .encode (running (withSource 0 [0x61, 0x62, 0x63] 0x1000 (ready abc))))
    (fun t => t.err == none &&
      (running (withSource 0 [0xB0, 0x05] 2 (built abc))).source == t.mem.readBytes 0x1000 t.result.toNat) = true by
      decide +kernel)
  simp only [Bool.and_eq_true] at h2
  exact ⟨_, t, running (withSource 0 [0xB0, 0x05] 2 (built abc)), running_inv (withSource_inv (ready_inv _) (by decide)),
    by decide +kernel, rfl,
    h1, eq_of_beq h2.1, running_inv (withSource_inv (built_inv _) (by decide)), by decide +kernel, rfl, eq_of_beq h2.2, by decide,
    by decide, by decide⟩

/-- No byte of the symbol, and the payload at the last address. -/
theorem witness_EncodeOfASingleSymbolCarriesNoCount :
    (running (withSource 0 [] 65535 (ready sixA))).InvAtIssue ∧
    (running (withSource 0 [0x61, 0x61] 2 (ready sixA))).InvAtIssue ∧
    (running (withSource 0 [0x61, 0x61] 2 (ready sixA))).treeState = .single ∧
    (running (withSource 0 [0x61, 0x61] 2 (ready sixA))).codesValid = true ∧
    entry (running (withSource 0 [0x61, 0x61] 2 (ready sixA))).freq 0x61 ≠ 0 ∧
    (∀ b ∈ (running (withSource 0 [0x61, 0x61] 2 (ready sixA))).source, b = 0x61) ∧
    (running (withSource 0 [0x61, 0x61] 2 (ready sixA))).srcAddr + (running (withSource 0 [0x61, 0x61] 2 (ready sixA))).srcLen
      ≤ (running (withSource 0 [0x61, 0x61] 2 (ready sixA))).dstAddr ∧
    (running (withSource 0 [] 65535 (ready sixA))).dstAddr + 1 ≤ (running (withSource 0 [] 65535 (ready sixA))).memBytes :=
  ⟨running_inv (withSource_inv (ready_inv _) (by decide)), running_inv (withSource_inv (ready_inv _) (by decide)),
    by decide +kernel, rfl,
    by decide +kernel, by decide +kernel, by decide, by decide⟩

theorem witness_NoCommandWritesTheOperandRegisters : ∃ t, exec .decode State.reset = .next t := ⟨_, rfl⟩

theorem witness_WhichCommandsWriteWhat :
    ∃ t, exec .freqClear (ready abc) = .next t ∧ t.freq ≠ (ready abc).freq := by
  obtain ⟨t, h1, h2⟩ := leaves_spec (show leaves (exec .freqClear (ready abc))
    (fun t => entry t.freq 0x61 == 0 && entry (ready abc).freq 0x61 == 1) = true by decide +kernel)
  simp only [Bool.and_eq_true] at h2
  refine ⟨t, h1, fun h => ?_⟩
  have := eq_of_beq h2.1
  rw [h, eq_of_beq h2.2] at this
  exact absurd this (by decide)

theorem witness_CommandsStoreOnlyTheirOutput : (withSource 0 [] 65535 (ready abra)).err = none ∧
    (∃ t, exec (.codeRead 0x63) (withSource 0 [] 65535 (ready abra)) = .next t ∧ t.err = none) ∧
    (∃ t, exec .encode (withSource 0 abraText 11 (ready abra)) = .next t ∧ t.err = none) ∧
    ∃ t, exec .buildTree (withSource 0 [] 65535 (ready abra)) = .next t ∧ t.err = none :=
  ⟨rfl, leaves_err (by decide +kernel), leaves_err (by decide +kernel), leaves_err (by decide +kernel)⟩

/-- The smallest memory and the build of section 2. -/
theorem witness_ResetMeetsTheInvariant : Params.standard.wf ∧ ({ small with memBytes := 1 } : Params).wf := by decide

theorem witness_StepKeepsTheInvariant : (about (.wr .cmd 0x11) (built abc)).Inv ∧
    ∃ t, step (about (.wr .cmd 0x11) (built abc)) = .next t ∧ t.err = none := by
  have h := built_inv abc
  exact ⟨⟨h.params_wf, h.mem_wf, h.cells_inside, h.windows_inside, h.idle, h.codes_need_tree, h.tree_current,
    h.codes_current, h.err_recorded⟩, leaves_err (by decide +kernel)⟩

theorem witness_InvariantMachineNeverStops : (ready abra).Inv := ready_inv _

end Sys2Proof.Tests
end

section
/-!
PROOFS of the statements about the state (10_state.md). What the invariant needs of each shared operation,
what a host action and a step can do, what a command leaves unchanged, and the internal nodes of BUILD_TREE.
-/

namespace Sys2Proof.Machine

/-! ## The invariant under each shared operation

A command starts from a state with BUSY = 1, so the operations are stated from `InvAtIssue`. -/

theorem State.InvAtIssue.inv {s : State} (h : s.InvAtIssue) (hb : s.busy = false) : s.Inv :=
  { h with idle := hb }

theorem State.InvAtIssue.complete {s : State} (h : s.InvAtIssue) (r : Word) : (s.complete r).Inv :=
  { h with idle := rfl }

theorem State.InvAtIssue.acknowledge {s : State} (h : s.InvAtIssue) : s.acknowledge.Inv :=
  { h with idle := rfl, err_recorded := fun _ hc => nomatch hc }

/-- A fault takes one draw and puts its code last in the history. -/
theorem State.InvAtIssue.raise {s : State} (h : s.InvAtIssue) (c : ErrCode) : (raise c s).Inv :=
  { h with
    idle := rfl
    windows_inside := fun w hw => (h.windows_inside w hw).imp_right Nat.lt_succ_of_lt
    err_recorded := fun _ hc => hc ▸ List.getLast?_concat }

/-- The window a fault leaves unspecified belongs to the draw that the fault takes. -/
theorem State.InvAtIssue.raiseWindow {s : State} (h : s.InvAtIssue) (c : ErrCode) : (raiseWindow c s).Inv :=
  { h.raise c with
    mem_wf := wf_scramble _ _ _ h.mem_wf
    cells_inside := fun d hd => h.cells_inside d (mem_cells_scramble hd)
    windows_inside := fun w hw => by
      rcases mem_windows_scramble hw with hw | ⟨rfl, hlt⟩
      · exact (h.raise c).windows_inside w hw
      · exact ⟨hlt, Nat.lt_succ_self _⟩ }

/-- A new frequency table makes the tree and the codes stale, so nothing is asked of them. -/
theorem State.InvAtIssue.newTable {s : State} (h : s.InvAtIssue) (f : FreqTable) :
    ({ s with freq := f } : State).invalidate.InvAtIssue :=
  { h with
    codes_need_tree := fun hv => nomatch hv
    tree_current := fun ht => absurd rfl ht
    codes_current := fun hv => nomatch hv }

theorem State.InvAtIssue.writeBytes {s : State} (h : s.InvAtIssue) {a : Nat} {bs : List Byte}
    (hb : bs.length = 0 ∨ a + bs.length ≤ s.memBytes) :
    ({ s with mem := s.mem.writeBytes a bs } : State).InvAtIssue :=
  { h with
    mem_wf := wf_writeBytes _ _ h.mem_wf
    cells_inside := fun c hc => by
      rcases mem_cells_writeBytes hc with hc | hin
      · exact h.cells_inside c hc
      · show c.1 < s.memBytes
        omega }

theorem State.InvAtIssue.store {s : State} (h : s.InvAtIssue) {out : List Byte} (r : Word)
    (hd : s.destInRange out.length = true) : (s.store out r).Inv :=
  (h.writeBytes (.inr (of_decide_eq_true hd))).complete r

theorem State.InvAtIssue.newTree {s : State} (h : s.InvAtIssue) :
    ({ s with tree := buildTree s.freq s.tree, treeState := builtState s.freq, codesValid := false } :
      State).InvAtIssue :=
  { h with
    codes_need_tree := fun hv => nomatch hv
    tree_current := fun _ => ⟨rfl, s.tree, rfl⟩
    codes_current := fun hv => nomatch hv }

theorem State.InvAtIssue.newCodes {s : State} (h : s.InvAtIssue) {codes : CodeTable}
    (ht : s.treeState ≠ .invalid) (hc : codeTable s.treeState s.tree = some codes) :
    ({ s with codes := codes, codesValid := true } : State).InvAtIssue :=
  { h with
    codes_need_tree := fun _ => ht
    codes_current := fun _ => hc }

theorem resetWith_inv {p : Params} (hp : p.wf) (k : Nat) : (State.resetWith p k).Inv where
  params_wf := hp
  mem_wf := wf_resetWith p k
  cells_inside := fun _ hc => nomatch hc
  windows_inside := fun w hw => by
    obtain rfl := List.mem_singleton.1 hw
    exact ⟨Nat.pos_of_ne_zero fun h => hp (BitVec.eq_of_toNat_eq h), Nat.lt_succ_self k⟩
  idle := rfl
  codes_need_tree := fun hv => nomatch hv
  tree_current := fun ht => absurd rfl ht
  codes_current := fun hv => nomatch hv
  err_recorded := fun _ hc => nomatch hc

theorem State.Inv.afterReset {s : State} (h : s.Inv) : s.afterReset.Inv :=
  { resetWith_inv h.params_wf s.draws with err_recorded := fun _ hc => nomatch hc }

/-- Every command ends in a state that the host may observe. -/
theorem Effect.keeps_inv {i : Instr} {s t : State} (e : Effect i s t) (h : s.InvAtIssue) : t.Inv := by
  cases e with
  | faulted c => exact h.raise c
  | tableFaulted c => exact (h.newTable (tabulate (Config.freeCount s.draws))).raise c
  | windowFaulted c => exact h.raiseWindow c
  | loaded f r => exact (h.newTable f).complete r
  | answered r => exact h.complete r
  | stored out r _ hd => exact h.store r hd
  | built => exact h.newTree.complete _
  | generated codes _ ht hc => exact (h.newCodes ht hc).complete _
  | acknowledged => exact h.acknowledge

theorem issue_keeps_inv {w : Word} {s t : State} (h : s.Inv) (hi : issue w s = .next t) : t.Inv := by
  rcases issue_cases hi with ⟨-, -, rfl⟩ | ⟨-, -, rfl⟩ | ⟨-, -, rfl⟩ | ⟨-, i, -, e⟩
  · exact h
  · exact (h.running s.program).acknowledge
  · exact h.atIssue.raise _
  · exact e.keeps_inv (h.running s.program)

/-! ## What a host action and a step can do -/

theorem hostMayAccess_iff {s : State} {a : Word} {n : Nat} :
    hostMayAccess s a n = true ↔ n = 0 ∨ a.toNat + n ≤ s.memBytes := by
  simp [hostMayAccess, inRange]

/-- Every state that an action of the host can leave. -/
inductive Acted (s : State) : HostAction → State → Prop where
  | wroteMem (a : Word) (bytes : List Byte) (hb : bytes.length = 0 ∨ a.toNat + bytes.length ≤ s.memBytes) :
      Acted s (.memw a bytes) { s with mem := s.mem.writeBytes a.toNat bytes }
  | readMem (a : Word) (n : Nat) :
      Acted s (.memr a n) { s with seen := s.seen ++ [.mem a (s.mem.readBytes a.toNat n)] }
  | issued (w : Word) (t : State) (hi : issue w s = .next t) : Acted s (.wr .cmd w) t
  | wroteReg (r : Reg) (v : Word) (hr : r ≠ .cmd) : Acted s (.wr r v) (s.writeReg r v)
  | readReg (r : Reg) : Acted s (.rd r) { s with seen := s.seen ++ [.reg r (s.readReg r)] }
  | wasReset : Acted s .reset s.afterReset

theorem act_wr {r : Reg} (hr : r ≠ .cmd) (v : Word) (s : State) :
    act (.wr r v) s = .next (s.writeReg r v) := by
  cases r with
  | cmd => exact absurd rfl hr
  | src | len | dst | result | status | reserved18 | reserved1C => rfl

theorem act_acted {h : HostAction} {s t : State} (ha : act h s = .next t) : Acted s h t := by
  cases h with
  | memw a bytes =>
    simp only [act] at ha
    split at ha
    · exact Host.Outcome.next.inj ha ▸ .wroteMem a bytes (hostMayAccess_iff.1 ‹_›)
    · cases ha
  | memr a n =>
    simp only [act] at ha
    split at ha
    · exact Host.Outcome.next.inj ha ▸ .readMem a n
    · cases ha
  | wr r v =>
    by_cases hr : r = .cmd
    · subst hr
      exact .issued v t ha
    · rw [act_wr hr] at ha
      exact Host.Outcome.next.inj ha ▸ .wroteReg r v hr
  | rd r => exact Host.Outcome.next.inj ha ▸ .readReg r
  | reset => exact Host.Outcome.next.inj ha ▸ .wasReset

theorem step_nil {s : State} (hp : s.program = []) : step s = .next s := by
  simp [step, stepHost, hp]

theorem step_cons {s : State} {h : HostAction} {rest : List HostAction} (hp : s.program = h :: rest) :
    step s = act h { s with program := rest } := by
  simp [step, stepHost, hp]

/-- Every state that a step can leave. -/
theorem step_cases {s t : State} (hs : step s = .next t) :
    (s.program = [] ∧ t = s) ∨
    ∃ h rest, s.program = h :: rest ∧ Acted { s with program := rest } h t := by
  cases hp : s.program with
  | nil => exact .inl ⟨rfl, (Host.Outcome.next.inj ((step_nil hp).symm.trans hs)).symm⟩
  | cons h rest => exact .inr ⟨h, rest, rfl, act_acted ((step_cons hp).symm.trans hs)⟩

theorem State.Inv.writeReg {s : State} (h : s.Inv) (r : Reg) (v : Word) : (s.writeReg r v).Inv := by
  cases r with
  | src | len | dst => exact { h with }
  | cmd | result | status | reserved18 | reserved1C => exact h

theorem Acted.keeps_inv {s t : State} {a : HostAction} (ha : Acted s a t) (h : s.Inv) : t.Inv := by
  cases ha with
  | wroteMem a bytes hb => exact (h.atIssue.writeBytes hb).inv h.idle
  | readMem => exact { h with }
  | issued w _ hi => exact issue_keeps_inv h hi
  | wroteReg r v => exact h.writeReg r v
  | readReg => exact { h with }
  | wasReset => exact h.afterReset

/-- Settles O59: each operation that a step is made of keeps the invariant. -/
theorem stepKeepsTheInvariant : Obligations.StepKeepsTheInvariant := by
  intro s t h hs
  rcases step_cases hs with ⟨-, rfl⟩ | ⟨a, rest, -, ha⟩
  · exact h
  · exact ha.keeps_inv { h with }

/-- Settles O58: memory lists nothing and its one window has the draw that reset takes. -/
theorem resetMeetsTheInvariant : Obligations.ResetMeetsTheInvariant :=
  fun _ k hp => resetWith_inv hp k

/-! ## The fault history -/

/-- A command records no fault, or one, which is then in ERR. -/
theorem Effect.faults_cases {i : Instr} {s t : State} (e : Effect i s t) :
    t.faults = s.faults ∨ ∃ c, t.faults = s.faults ++ [c] ∧ t.err = some c := by
  cases e with
  | faulted c | tableFaulted c | windowFaulted c => exact .inr ⟨c, rfl, rfl⟩
  | loaded | answered | stored | built | generated | acknowledged => exact .inl rfl

theorem issue_faults_cases {w : Word} {s t : State} (hi : issue w s = .next t) :
    t.faults = s.faults ∨ ∃ c, t.faults = s.faults ++ [c] ∧ t.err = some c := by
  rcases issue_cases hi with ⟨-, -, rfl⟩ | ⟨-, -, rfl⟩ | ⟨-, -, rfl⟩ | ⟨-, i, -, e⟩
  · exact .inl rfl
  · exact .inl rfl
  · exact .inr ⟨_, rfl, rfl⟩
  · exact e.faults_cases

/-- While ERR ≠ 0 a command word leaves ERR, or is CLEAR_STATUS (R28). -/
theorem issue_err_cases {w : Word} {s t : State} (hi : issue w s = .next t) (he : s.err ≠ none) :
    t.err = s.err ∨ (t.err = none ∧ w = 0x30) := by
  rcases issue_cases hi with ⟨-, -, rfl⟩ | ⟨-, hw, rfl⟩ | ⟨h0, -⟩ | ⟨h0, -⟩
  · exact .inl rfl
  · exact .inr ⟨rfl, hw⟩
  · exact absurd h0 he
  · exact absurd h0 he

@[simp] theorem writeReg_faults (s : State) (r : Reg) (v : Word) : (s.writeReg r v).faults = s.faults := by
  cases r <;> rfl

@[simp] theorem writeReg_err (s : State) (r : Reg) (v : Word) : (s.writeReg r v).err = s.err := by
  cases r <;> rfl

theorem Acted.faults_cases {s t : State} {a : HostAction} (ha : Acted s a t) :
    t.faults = s.faults ∨ ∃ c, t.faults = s.faults ++ [c] ∧ t.err = some c := by
  cases ha with
  | issued w _ hi => exact issue_faults_cases hi
  | wroteReg r v => exact .inl (writeReg_faults s r v)
  | wroteMem | readMem | readReg | wasReset => exact .inl rfl

theorem Acted.err_cases {s t : State} {a : HostAction} (ha : Acted s a t) (he : s.err ≠ none) :
    t.err = s.err ∨ (t.err = none ∧ (a = .reset ∨ a = .wr .cmd 0x30)) := by
  cases ha with
  | issued w _ hi => exact (issue_err_cases hi he).imp_right fun ⟨h0, hw⟩ => ⟨h0, .inr (hw ▸ rfl)⟩
  | wroteReg r v => exact .inl (writeReg_err s r v)
  | wasReset => exact .inr ⟨rfl, .inl rfl⟩
  | wroteMem | readMem | readReg => exact .inl rfl

/-- Settles O18, by the cases of a step. -/
theorem faultsAreRecordedOnceAndSticky : Obligations.FaultsAreRecordedOnceAndSticky := by
  intro s t hs
  rcases step_cases hs with ⟨-, rfl⟩ | ⟨a, rest, hp, ha⟩
  · exact ⟨.inl rfl, fun c hc => .inl hc⟩
  · refine ⟨ha.faults_cases, fun c hc => ?_⟩
    rcases ha.err_cases (hc ▸ Option.some_ne_none c) with h | ⟨h0, hw⟩
    · exact .inl (h.trans hc)
    · exact .inr ⟨h0, by simpa [hp] using hw⟩

/-! ## What a command leaves unchanged -/

/-- Settles O55, by the effects of a command. -/
theorem noCommandWritesTheOperandRegisters : Obligations.NoCommandWritesTheOperandRegisters := by
  intro i s t h
  cases exec_effect h with
  | faulted | tableFaulted | windowFaulted | loaded | answered | stored | built | generated | acknowledged =>
    exact ⟨rfl, rfl, rfl, rfl, rfl, rfl⟩

/-- FREQ, TREE_STATE, CODES_VALID, the tree and the code table: what R33 and R93 give writers for. -/
def State.tables (s : State) : FreqTable × TreeState × Bool × Tree × CodeTable :=
  (s.freq, s.treeState, s.codesValid, s.tree, s.codes)

/-- What a command does to the tables: nothing, or what FREQ_CLEAR, FREQ_COUNT and FREQ_LOAD do, or
BUILD_TREE, or GEN_CODES (R33, R93, R311). -/
theorem Effect.tables_cases {i : Instr} {s t : State} (e : Effect i s t) :
    t.tables = s.tables ∨
    (i ∈ ([.freqClear, .freqCount, .freqLoad] : List Instr) ∧
      t.tables = (t.freq, .invalid, false, s.tree, s.codes)) ∨
    (i = .buildTree ∧ t.tables = (s.freq, t.treeState, t.codesValid, t.tree, s.codes)) ∨
    (i = .genCodes ∧ t.tables = (s.freq, s.treeState, t.codesValid, s.tree, t.codes)) := by
  cases e with
  | faulted | windowFaulted | answered | stored | acknowledged => exact .inl rfl
  | tableFaulted _ hi => exact .inr (.inl ⟨by simp [hi], rfl⟩)
  | loaded _ _ hi => exact .inr (.inl ⟨by simpa using hi, rfl⟩)
  | built hi => exact .inr (.inr (.inl ⟨hi, rfl⟩))
  | generated _ hi => exact .inr (.inr (.inr ⟨hi, rfl⟩))

/-- Settles O56, by the four things a command can do to the tables. -/
theorem whichCommandsWriteWhat : Obligations.WhichCommandsWriteWhat := by
  intro i s t h
  rcases (exec_effect h).tables_cases with ht | ⟨hi, ht⟩ | ⟨rfl, ht⟩ | ⟨rfl, ht⟩ <;>
    simp only [State.tables, Prod.mk.injEq] at ht <;> obtain ⟨hf, hs, hv, hn, hc⟩ := ht
  · simp [hf, hs, hv, hn, hc]
  · refine ⟨fun hj => absurd hi hj, fun hj => absurd ?_ hj, fun hj => absurd ?_ hj, fun _ => hn, fun _ => hc,
      fun _ => ⟨hs, hv⟩⟩
    · exact List.mem_append_left [.buildTree] hi
    · exact List.mem_append_left [.buildTree, .genCodes] hi
  · simp [hf, hc]
  · simp [hf, hs, hn]

/-! ## Issuing, register accesses, STATUS, reset -/

theorem issue_decoded {w : Word} {s : State} {i : Instr} (he : s.err = none)
    (hd : decodeWord s.params w = .ok i) : issue w s = exec i { s with busy := true } := by
  simp [issue, he, hd]

theorem issue_ignored {w : Word} {s : State} (he : s.err ≠ none) (hw : w ≠ 0x30) : issue w s = .next s := by
  rw [issue, if_pos he, if_neg hw]

/-- Settles O4: the host's write of CMD issues the word. -/
theorem stepRunsTheDecodedCommand : Obligations.StepRunsTheDecodedCommand := by
  intro s w rest i hp he hd
  exact (step_cons hp).trans (issue_decoded he hd)

/-- Settles O6: the host's write of CMD issues a word that is ignored (R28). -/
theorem faultedBlockIgnoresOtherWords : Obligations.FaultedBlockIgnoresOtherWords := by
  intro s w rest hp he hw
  exact (step_cons hp).trans (issue_ignored he hw)

/-- Settles O9, one register at a time. -/
theorem hostAccessesRegisters : Obligations.HostAccessesRegisters := by
  intro s v rest
  refine ⟨fun r hp => ⟨s.readReg r, step_cons hp, ?_⟩, step_cons, step_cons, step_cons, fun r hr hp => ?_⟩
  · cases r <;> rfl
  · rw [step_cons hp]
    simp only [List.mem_cons, List.not_mem_nil, or_false] at hr
    rcases hr with rfl | rfl | rfl | rfl <;> rfl

theorem status_codesValid (s : State) : s.status.getLsbD 10 = s.codesValid := by
  rw [status_getLsbD]; simp

theorem status_busy (s : State) : s.status.getLsbD 11 = s.busy := by
  rw [status_getLsbD]; simp

theorem status_hasFreqCount (s : State) : s.status.getLsbD 12 = s.params.hasFreqCount := by
  rw [status_getLsbD]; simp

/-- Settles O11, from the bits of the STATUS word. -/
theorem statusWordLayout : Obligations.StatusWordLayout := by
  intro s
  have herr : s.status.extractLsb' 0 8 = s.errField :=
    BitVec.eq_of_getLsbD_eq fun j hj => by simp [status_getLsbD, hj]
  have htree : s.status.extractLsb' 8 2 = s.treeState.code :=
    BitVec.eq_of_getLsbD_eq fun j hj => by simp [status_getLsbD, hj]
  have hzero : s.status.extractLsb' 13 19 = 0 :=
    BitVec.eq_of_getLsbD_eq fun j hj => by
      rw [BitVec.getLsbD_extractLsb', status_getLsbD, if_neg (by omega), if_neg (by omega), if_neg (by omega),
        if_neg (by omega), if_neg (by omega)]
      simp
  exact ⟨herr, htree, status_codesValid s, status_busy s, status_hasFreqCount s, hzero⟩

/-- Right after reset every byte of memory is the free value of the fresh draw (R66). -/
theorem read_afterReset (s : State) (a : Nat) : s.afterReset.mem.read a = Config.freeByte s.draws a := by
  simp [Memory.read, Memory.lookup, Memory.drawAt]

/-- Settles O12: the fields of `afterReset`, and its memory as a fresh draw. -/
theorem resetSetsEveryStatedValue : Obligations.ResetSetsEveryStatedValue := by
  intro s rest hp
  refine ⟨_, step_cons hp, rfl, rfl, rfl, rfl, rfl, rfl, rfl, rfl, rfl, rfl, rfl,
    status_hasFreqCount _, entry_replicate 0, rfl, read_afterReset _, Nat.lt_succ_self _⟩

/-! ## The internal nodes of BUILD_TREE -/

/-- The node at `i` is internal over two different nodes below it, with the sum of their weights, not
wrapped, and the smaller of their discriminators (R37, R165). -/
def IsMerge (nodes : Vector Node maxNodes) (i : NodeIndex) : Prop :=
  ∃ (w : Weight) (d : Byte) (l r : NodeIndex), nodes[i] = .internal w d l r ∧ l ≠ r ∧ l < i ∧ r < i ∧
    w.toNat = nodes[l].weight.toNat + nodes[r].weight.toNat ∧ d.toNat = min nodes[l].disc.toNat nodes[r].disc.toNat

theorem IsMerge.congr {nodes nodes' : Vector Node maxNodes} {i : NodeIndex} (h : IsMerge nodes i)
    (hn : ∀ j ≤ i, nodes'[j] = nodes[j]) : IsMerge nodes' i := by
  obtain ⟨w, d, l, r, hi, hne, hl, hr, hw, hd⟩ := h
  refine ⟨w, d, l, r, (hn i le_rfl).trans hi, hne, hl, hr, ?_, ?_⟩ <;> rwa [hn l hl.le, hn r hr.le]

/-- One merge writes an internal node at `next`: the new tree of the forest gives its weight and
discriminator, the queue without duplicates its two different children. -/
theorem Forest.isMerge_mergeStep {k : Nat} {L : List (Byte × Nat)} {b : Build} (h : Forest k L b) (hk : k ≤ 256)
    (hL : (L.map Prod.snd).sum < 2 ^ 40) (h2 : 2 ≤ b.queue.length) {i : NodeIndex} (hi : i.val = b.next) :
    IsMerge b.mergeStep.nodes i := by
  obtain ⟨⟨⟨T, hT, -⟩, -, -⟩, -, -, -⟩ := h.mergeStep hk hL h2
  rcases b.mergeStep_cases with ⟨hlt, -⟩ | ⟨l, q, r, rest, -, -, hp, hs⟩
  · omega
  obtain rfl : Fin.ofNat maxNodes b.next = i := Fin.ext (by rw [ofNat_next (hi ▸ i.isLt), hi])
  have hnode : b.mergeStep.nodes[Fin.ofNat maxNodes b.next] = mergeNode b.nodes l r := by
    simp only [hs]; exact Vector.getElem_set_self _
  have hne : l ≠ r := fun he => by simpa [he] using hp.nodup_iff.1 h.nodup
  have hhold := (hT _ (by rw [hs]; exact List.mem_cons_self)).1
  cases ht : T (Fin.ofNat maxNodes b.next) with
  | leaf sym c =>
    rw [ht] at hhold
    obtain ⟨w, hleaf, -⟩ := hhold
    exact nomatch hnode.symm.trans hleaf
  | node tl tr =>
    rw [ht] at hhold
    obtain ⟨w, d, li, ri, hint, hw, hd, hl, hr, Hl, Hr⟩ := hhold
    obtain ⟨-, -, rfl, rfl⟩ := Node.internal.inj (hnode.symm.trans hint)
    exact ⟨w, d, l, r, hint, hne, hl, hr, by rw [hw, Hl.weight, Hr.weight], by rw [hd, Hl.disc, Hr.disc]⟩

/-- Every node that `n` merges add is a merge, and later merges leave it so. -/
theorem Forest.isMerge_mergeAll {k : Nat} {L : List (Byte × Nat)} (hk : k ≤ 256)
    (hL : (L.map Prod.snd).sum < 2 ^ 40) (n : Nat) {b : Build} (h : Forest k L b) (hf : b.Fits)
    (hn : n < b.queue.length) {i : NodeIndex} (hlo : b.next ≤ i.val) (hhi : i.val < b.next + n) :
    IsMerge (b.mergeAll n).nodes i := by
  induction n generalizing b with
  | zero => omega
  | succ n ih =>
    obtain ⟨h', hlen, hnext, -⟩ := h.mergeStep hk hL (by omega)
    rcases Nat.eq_or_lt_of_le hlo with he | hlt
    · refine (h.isMerge_mergeStep hk hL (by omega) he.symm).congr fun j hj => ?_
      have : j.val ≤ i.val := hj
      exact hf.mergeStep.mergeAll_node n (by omega)
    · exact ih h' hf.mergeStep (by omega) (by omega) (by omega)

theorem buildTree_nodes (f : FreqTable) (old : Tree) (hk : 2 ≤ (present f).length) :
    (buildTree f old).nodes = ((Build.start f old.nodes).mergeAll ((present f).length - 1)).nodes := by
  obtain ⟨k, hk'⟩ := Nat.exists_eq_add_of_le' hk
  unfold buildTree
  simp [hk']

/-- A leaf that BUILD_TREE places stays through the merges (R39). -/
theorem buildTree_leaf (f : FreqTable) (old : Tree) (hk : 2 ≤ (present f).length) (i : NodeIndex)
    (h : i.val < (present f).length) : (buildTree f old).nodes[i] = leafOf (present f)[i.val] := by
  have hle := present_length_le f
  have hplace := placeLeaves_getElem (present f) 0 old.nodes (by show 0 + _ ≤ 511; omega) i
  rw [dif_pos ⟨Nat.zero_le _, by omega⟩] at hplace
  simp only [buildTree_nodes f old hk]
  exact ((Build.start_fits f old.nodes).mergeAll_node _ h).trans hplace

/-- Settles O30: leaves as placed, then one merge per index. -/
theorem nodeArrayIsAStrictBinaryTree : Obligations.NodeArrayIsAStrictBinaryTree := by
  intro f old hk i
  refine ⟨buildTree_leaf f old hk i, fun hlo hhi => ?_⟩
  have hq : (Build.start f old.nodes).queue.length = (present f).length := by simp [Build.start]
  have hn : (Build.start f old.nodes).next = (present f).length := rfl
  rw [buildTree_nodes f old hk]
  exact (Forest.start f old.nodes).isMerge_mergeAll (present_length_le f) (leafPairs_sum_lt f) _
    (Build.start_fits f old.nodes) (by omega) (by omega) (by omega)

end Sys2Proof.Machine
end

section
/-!
PROOFS of the statements about buffer memory (20_memory.md). The host's buffer accesses, the range faults of
the table commands and CODE_READ, and which bytes a command stores.
-/

namespace Sys2Proof.Machine

/-! ## The host's buffer accesses -/

theorem act_memw {a : Word} {bytes : List Byte} {s : State} (h : a.toNat + bytes.length ≤ s.memBytes) :
    act (.memw a bytes) s = .next { s with mem := s.mem.writeBytes a.toNat bytes } :=
  if_pos (hostMayAccess_iff.2 (.inr h))

theorem act_memr {a : Word} {n : Nat} {s : State} (h : a.toNat + n ≤ s.memBytes) :
    act (.memr a n) s = .next { s with seen := s.seen ++ [.mem a (s.mem.readBytes a.toNat n)] } :=
  if_pos (hostMayAccess_iff.2 (.inr h))

/-- A nonempty access past MEM_BYTES is no move of the host (X8). -/
theorem not_hostMayAccess {a : Word} {n : Nat} {s : State} (hn : 0 < n) (h : s.memBytes < a.toNat + n) :
    ¬ hostMayAccess s a n = true := by
  rw [hostMayAccess_iff]
  omega

theorem readBytes_getElem? (m : Memory) (a : Nat) {i n : Nat} (h : i < n) :
    (m.readBytes a n)[i]? = some (m.read (a + i)) := by
  simp [Memory.readBytes, h]

/-- Settles O10: an access inside memory is a move, a nonempty one past it is refused. -/
theorem hostAccessesBufferMemory : Obligations.HostAccessesBufferMemory := by
  intro s a bytes rest
  refine ⟨fun hp hr => ?_, fun hp hb hr => ?_, fun n hp hr => ?_, fun n hp hn hr => ?_⟩
  · exact ⟨_, (step_cons hp).trans (act_memw hr), rfl, readBytes_writeBytes _ _ _,
      fun x hx => read_writeBytes_outside _ hx⟩
  · exact (step_cons hp).trans (if_neg (not_hostMayAccess (List.length_pos_iff.2 hb) hr))
  · exact ⟨_, (step_cons hp).trans (act_memr hr), readBytes_length _ _ _,
      fun i hi => readBytes_getElem? _ _ hi⟩
  · exact (step_cons hp).trans (if_neg (not_hostMayAccess hn hr))

/-! ## Range faults -/

theorem inRange_eq_false {s : State} {a n : Nat} : inRange s a n = false ↔ s.memBytes < a + n := by
  simp [inRange]

theorem execFreqCount_memRange {s : State} (h : s.sourceInRange = false) :
    execFreqCount s = .next (raise .memRange s) := by
  simp [execFreqCount, h]

theorem execFreqLoad_memRange {s : State} (h : s.sourceInRange = false) :
    execFreqLoad s = .next (raise .memRange s) := by
  simp [execFreqLoad, h]

theorem execFreqStore_eq (s : State) : execFreqStore s =
    .next (if s.destInRange (serFreq s.freq).length then
      s.store (serFreq s.freq) (BitVec.ofNat 32 (serFreq s.freq).length) else raise .memRange s) := by
  cases h : s.destInRange (serFreq s.freq).length <;> simp [execFreqStore, h]

/-- CODE_READ with valid codes: the code's bytes are stored if they fit (R178). -/
theorem execCodeRead_eq (x : Byte) {s : State} (hv : s.codesValid = true) : execCodeRead x s =
    .next (if s.destInRange (groupsFor (entry s.codes x).len.toNat) then
      s.store (packGroups (groupsFor (entry s.codes x).len.toNat) (entry s.codes x).code)
        ((BitVec.ofBool (entry s.codes x).present ++ (entry s.codes x).len).setWidth 32)
      else raise .memRange s) := by
  cases h : s.destInRange (groupsFor (entry s.codes x).len.toNat) <;> simp [execCodeRead, hv, h]

/-- Settles O27: each of the four commands ends in `raise .memRange`. -/
theorem rangeFaultsOfTheTableCommands : Obligations.RangeFaultsOfTheTableCommands := by
  intro s i h
  suffices he : exec i s = .next (raise .memRange s) from ⟨_, he, rfl⟩
  rcases h with ⟨rfl | rfl, hr⟩ | ⟨rfl, hr⟩ | ⟨x, rfl, hv, hr⟩
  · exact execFreqCount_memRange (inRange_eq_false.2 hr)
  · exact execFreqLoad_memRange (inRange_eq_false.2 hr)
  · have hd : s.destInRange (serFreq s.freq).length = false := inRange_eq_false.2 hr
    exact (execFreqStore_eq s).trans (by simp [hd])
  · have hd : s.destInRange (groupsFor (entry s.codes x).len.toNat) = false := inRange_eq_false.2 hr
    exact (execCodeRead_eq x hv).trans (by simp [hd])

/-! ## The bytes a command stores -/

/-- `t` is in a fault, or is `s` with an output stored at DST whose length RESULT counts: how FREQ_STORE,
ENCODE and DECODE end (R140, R200, R209). -/
def CountsOutput (s t : State) : Prop :=
  t.err ≠ none ∨
    ∃ out, s.destInRange out.length = true ∧ t = s.store out (BitVec.ofNat 32 out.length)

theorem CountsOutput.raise (c : ErrCode) (s : State) : CountsOutput s (raise c s) :=
  .inl (Option.some_ne_none c)

theorem CountsOutput.raiseWindow (c : ErrCode) (s : State) : CountsOutput s (raiseWindow c s) :=
  .inl (Option.some_ne_none c)

theorem CountsOutput.storeOutput (s : State) {m : Nat} {out : Unit → List Byte} (hm : m = (out ()).length) :
    CountsOutput s (s.storeOutput m out) := by
  subst hm
  rcases storeOutput_cases s (out ()).length out with ⟨-, h⟩ | ⟨-, -, h⟩ | ⟨hd, -, h⟩ <;> rw [h]
  · exact .raiseWindow _ s
  · exact .raiseWindow _ s
  · exact .inr ⟨out (), hd, rfl⟩

/-- An output inside memory is shorter than 2^32 bytes, so RESULT counts it without wrapping, and no byte
outside it changes (R77). -/
theorem CountsOutput.read_outside {s t : State} (h : CountsOutput s t) (he : t.err = none) {a : Nat}
    (ha : ¬ (s.dstAddr ≤ a ∧ a < s.dstAddr + t.result.toNat)) : t.mem.read a = s.mem.read a := by
  obtain h | ⟨out, hd, rfl⟩ := h
  · exact absurd he h
  · have hfit : s.dstAddr + out.length ≤ s.memBytes := of_decide_eq_true hd
    have hmem : s.memBytes < 2 ^ 32 := s.params.memBytes.isLt
    have hres : (BitVec.ofNat 32 out.length).toNat = out.length :=
      (BitVec.toNat_ofNat _ _).trans (Nat.mod_eq_of_lt (by omega))
    rw [store_result, hres] at ha
    exact read_writeBytes_outside _ ha

theorem execFreqStore_countsOutput {s t : State} (h : execFreqStore s = .next t) : CountsOutput s t := by
  rw [execFreqStore_eq] at h
  obtain rfl := Host.Outcome.next.inj h
  split
  · exact .inr ⟨_, ‹_›, rfl⟩
  · exact .raise _ s

theorem execEncode_countsOutput {s t : State} (h : execEncode s = .next t) : CountsOutput s t := by
  unfold execEncode at h
  split at h
  · exact Host.Outcome.next.inj h ▸ .raise _ s
  · split at h
    · exact Host.Outcome.next.inj h ▸ .raise _ s
    · split at h
      · exact Host.Outcome.next.inj h ▸ .raiseWindow _ s
      · exact Host.Outcome.next.inj h ▸ .storeOutput s rfl

theorem decodeSingle_countsOutput {bits : List Bool} {s t : State} (h : decodeSingle bits s = .next t) :
    CountsOutput s t := by
  unfold decodeSingle at h
  split at h
  · exact Host.Outcome.next.inj h ▸ .raiseWindow _ s
  · split at h
    · exact Host.Outcome.next.inj h ▸ .storeOutput s List.length_replicate.symm
    · cases h

theorem decodeMulti_countsOutput {bits : List Bool} {s t : State} (h : decodeMulti bits s = .next t) :
    CountsOutput s t := by
  unfold decodeMulti at h
  split at h
  · cases h
  · split at h
    · exact Host.Outcome.next.inj h ▸ .raiseWindow _ s
    · exact Host.Outcome.next.inj h ▸ .storeOutput s rfl

theorem decodePayload_countsOutput {p : List Byte} {s t : State} (h : decodePayload p s = .next t) :
    CountsOutput s t := by
  unfold decodePayload at h
  split at h
  · split at h
    · exact Host.Outcome.next.inj h ▸ .raiseWindow _ s
    · exact Host.Outcome.next.inj h ▸ .storeOutput s rfl
  · split at h
    · exact Host.Outcome.next.inj h ▸ .raiseWindow _ s
    · split at h
      · exact decodeSingle_countsOutput h
      · exact decodeMulti_countsOutput h

theorem execDecode_countsOutput {s t : State} (h : execDecode s = .next t) : CountsOutput s t := by
  unfold execDecode at h
  split at h
  · exact Host.Outcome.next.inj h ▸ .raise _ s
  · split at h
    · exact Host.Outcome.next.inj h ▸ .raise _ s
    · exact decodePayload_countsOutput h

/-- CODE_READ without a fault changes no byte outside the ceil(LEN / 8) bytes at DST (R178). -/
theorem execCodeRead_read_outside {x : Byte} {s t : State} (h : execCodeRead x s = .next t) (he : t.err = none)
    {a : Nat} (ha : ¬ (s.dstAddr ≤ a ∧ a < s.dstAddr + groupsFor (entry s.codes x).len.toNat)) :
    t.mem.read a = s.mem.read a := by
  cases hv : s.codesValid with
  | false =>
    obtain rfl : raise .notReady s = t := by simpa [execCodeRead, hv] using h
    cases he
  | true =>
    rw [execCodeRead_eq x hv] at h
    obtain rfl := Host.Outcome.next.inj h
    split at he
    · rw [if_pos ‹_›]
      exact read_writeBytes_outside _ (by rwa [packGroups_length])
    · cases he

/-- A command that stores nothing and does not fault leaves all of memory (R77, R93). -/
theorem Effect.mem_eq {i : Instr} {s t : State} (e : Effect i s t) (he : t.err = none)
    (hi : ¬ (i = .freqStore ∨ (∃ sym, i = .codeRead sym) ∨ i = .encode ∨ i = .decode)) : t.mem = s.mem := by
  cases e with
  | faulted | tableFaulted | windowFaulted => cases he
  | stored _ _ hs => exact absurd hs hi
  | loaded | answered | built | generated | acknowledged => rfl

/-- Settles O57: three commands count what they store in RESULT, CODE_READ stores ceil(LEN / 8) bytes, and the
others keep memory as it is. -/
theorem commandsStoreOnlyTheirOutput : Obligations.CommandsStoreOnlyTheirOutput := by
  rintro i s t - h he m rfl a ha
  cases i with
  | freqStore => exact (execFreqStore_countsOutput h).read_outside he ha
  | encode => exact (execEncode_countsOutput h).read_outside he ha
  | decode => exact (execDecode_countsOutput h).read_outside he ha
  | codeRead x => exact execCodeRead_read_outside h he ha
  | freqClear | freqCount | freqLoad | freqRead | buildTree | genCodes | clearStatus =>
    rw [(exec_effect h).mem_eq he (by simp)]

end Sys2Proof.Machine
end

section
/-!
PROOFS of the statements about encoding (30_encoding.md). Decoding accepts exactly the words that encoding
makes of the commands the build has; the opcode map follows by writing those words out.
-/

namespace Sys2Proof

/-! ## Decoding an encoded command -/

theorem fields_of_encodeWord : (i : Instr) → Laws.Fields.Statement i
  | .freqClear => Laws.Fields.freqClear
  | .freqCount => Laws.Fields.freqCount
  | .freqLoad => Laws.Fields.freqLoad
  | .freqStore => Laws.Fields.freqStore
  | .freqRead sym => Laws.Fields.freqRead sym
  | .buildTree => Laws.Fields.buildTree
  | .genCodes => Laws.Fields.genCodes
  | .codeRead sym => Laws.Fields.codeRead sym
  | .encode => Laws.Fields.encode
  | .decode => Laws.Fields.decode
  | .clearStatus => Laws.Fields.clearStatus

/-- Settles O2: the fields of an encoded command pass every check of R95 but the one of R98. -/
theorem decodeInvertsEncode : Obligations.DecodeInvertsEncode := by
  intro p i
  obtain ⟨hop, hsym, hrsv, hzero, hmap⟩ := fields_of_encodeWord i
  cases hwf : i.wellFormed p <;> simpa [decodeWord, hop, hsym, hrsv, hmap, hwf] using hzero

/-! ## The words that decode -/

/-- The opcode map inverts `Instr.opcode`, and carries SYM into the commands that take it (R90, R94). -/
theorem instrOfOpcode_some {op sym : Byte} {i : Instr} (h : instrOfOpcode op sym = some i) :
    op = i.opcode ∧ i.symbol = if i.takesSymbol then sym else 0 := by
  unfold instrOfOpcode at h
  split at h <;> cases h <;> exact ⟨rfl, rfl⟩

/-- What a word that decodes has passed: the checks of R95, in its order. -/
theorem decodeWord_ok {p : Params} {w : Word} {i : Instr} (h : decodeWord p w = .ok i) :
    instrOfOpcode (opField w) (symField w) = some i ∧ rsvField w = 0 ∧
      (i.takesSymbol = false → symField w = 0) ∧ i.wellFormed p = true := by
  unfold decodeWord at h
  split at h
  · cases h
  · rename_i j hmap
    split_ifs at h with hrsv hsym hwf
    cases h
    exact ⟨hmap, not_not.1 hrsv, fun ht => by simpa [ht] using hsym, by simpa using hwf⟩

/-- R94, R98: a word decodes to a command exactly when the build has the command and this is its word. -/
theorem decodeWord_eq_ok_iff {p : Params} {w : Word} {i : Instr} :
    decodeWord p w = .ok i ↔ i.wellFormed p = true ∧ w = encodeWord i := by
  constructor
  · intro h
    obtain ⟨hmap, hrsv, hzero, hwf⟩ := decodeWord_ok h
    obtain ⟨hop, hsym⟩ := instrOfOpcode_some hmap
    have hsym : symField w = i.symbol := by
      cases ht : i.takesSymbol with
      | false => simp [hsym, ht, hzero ht]
      | true => simp [hsym, ht]
    refine ⟨hwf, ?_⟩
    calc w = rsvField w ++ symField w ++ opField w := word_of_fields w
      _ = encodeWord i := by rw [hrsv, hsym, hop]; rfl
  · rintro ⟨hwf, rfl⟩
    rw [decodeInvertsEncode p i, if_pos hwf]

theorem toNat_encodeWord (i : Instr) :
    (encodeWord i).toNat = i.symbol.toNat <<< 8 + i.opcode.toNat := by
  rw [Nat.shiftLeft_add_eq_or_of_lt i.opcode.isLt]
  show ((0#16 ++ i.symbol ++ i.opcode : BitVec (16 + 8 + 8))).toNat = _
  simp only [BitVec.toNat_append, BitVec.toNat_zero, Nat.zero_shiftLeft, Nat.zero_or]

/-- A command word as the opcode map writes it: OP + (SYM << 8) (R94). -/
theorem encodeWord_eq_add (i : Instr) :
    encodeWord i = i.opcode.setWidth 32 + (i.symbol.setWidth 32 <<< 8) := by
  have hop := i.opcode.isLt
  have hsym := i.symbol.isLt
  apply BitVec.eq_of_toNat_eq
  rw [toNat_encodeWord]
  simp only [BitVec.toNat_add, BitVec.toNat_shiftLeft, BitVec.toNat_setWidth, Nat.shiftLeft_eq]
  omega

/-- Settles O1: the words of the commands, written out. -/
theorem opcodeMapIsExact : Obligations.OpcodeMapIsExact := by
  intro p w i
  rw [decodeWord_eq_ok_iff, encodeWord_eq_add]
  cases i <;> simp [Instr.wellFormed, Instr.opcode, Instr.symbol]

/-- Settles O3: the decoder evaluated on each word. -/
theorem sampleWordsDecode : Obligations.SampleWordsDecode := by
  unfold Obligations.SampleWordsDecode
  decide

namespace Machine

/-! ## An illegal word -/

theorem issue_illegal {w : Word} {s : State} {e : DecodeError} (he : s.err = none)
    (hd : decodeWord s.params w = .error e) : issue w s = .next (raise .badCommand s) := by
  simp [issue, he, hd]

/-- Settles O5: the host's write of CMD issues a word that raises BAD_COMMAND. -/
theorem illegalWordFaultsAndChangesNothingElse : Obligations.IllegalWordFaultsAndChangesNothingElse := by
  intro s w rest e hp he hd
  exact ⟨_, (step_cons hp).trans (issue_illegal he hd), rfl⟩

end Machine

end Sys2Proof
end

section
/-!
PROOFS of the statements about the frequency table (40_frequency_table.md). What each command does with its
range in memory, then the statements of FREQ_CLEAR, FREQ_COUNT, FREQ_LOAD, FREQ_STORE and FREQ_READ.
-/

namespace Sys2Proof.Machine

/-! ## The commands with their range in memory -/

theorem inRange_iff {s : State} {a n : Nat} : inRange s a n = true ↔ a + n ≤ s.memBytes :=
  decide_eq_true_iff

/-- A number of bytes that fits in memory is a 32-bit number (R10). -/
theorem toNat_ofNat_of_fits {s : State} {a n : Nat} (h : a + n ≤ s.memBytes) :
    (BitVec.ofNat 32 n).toNat = n := by
  have hmem : s.memBytes < 2 ^ 32 := s.params.memBytes.isLt
  exact (BitVec.toNat_ofNat _ _).trans (Nat.mod_eq_of_lt (by omega))

theorem execFreqCount_completes {s : State} (h : s.srcAddr + s.srcLen ≤ s.memBytes) :
    execFreqCount s = .next ({ s with freq := countTable s.source }.invalidate.complete
      (BitVec.ofNat 32 (present (countTable s.source)).length)) := by
  have hr : s.sourceInRange = true := inRange_iff.2 h
  simp [execFreqCount, hr]

theorem execFreqLoad_of_parse_ok {s : State} {f : FreqTable} (h : s.srcAddr + s.srcLen ≤ s.memBytes)
    (hp : parseFreq s.source = .ok f) : execFreqLoad s =
      .next ({ s with freq := f }.invalidate.complete (BitVec.ofNat 32 (s.srcLen / 5))) := by
  have hr : s.sourceInRange = true := inRange_iff.2 h
  simp [execFreqLoad, hr, hp]

theorem execFreqLoad_of_parse_error {s : State} {c : ErrCode} (h : s.srcAddr + s.srcLen ≤ s.memBytes)
    (hp : parseFreq s.source = .error c) : execFreqLoad s = .next (raiseTable c s.invalidate) := by
  have hr : s.sourceInRange = true := inRange_iff.2 h
  simp [execFreqLoad, hr, hp]

/-- A FREQ_LOAD that leaves ERR at 0 parsed its source, and FREQ is the table it gave (R132). -/
theorem execFreqLoad_ok {s t : State} (h : execFreqLoad s = .next t) (he : t.err = none) :
    parseFreq s.source = .ok t.freq := by
  cases hr : s.sourceInRange with
  | false =>
    rw [execFreqLoad_memRange hr] at h
    cases h
    cases he
  | true =>
    have hfit : s.srcAddr + s.srcLen ≤ s.memBytes := inRange_iff.1 hr
    cases hp : parseFreq s.source with
    | error c =>
      rw [execFreqLoad_of_parse_error hfit hp] at h
      cases h
      cases he
    | ok f =>
      rw [execFreqLoad_of_parse_ok hfit hp] at h
      cases h
      rfl

theorem execFreqStore_completes {s : State} (h : s.dstAddr + (serFreq s.freq).length ≤ s.memBytes) :
    execFreqStore s = .next (s.store (serFreq s.freq) (BitVec.ofNat 32 (serFreq s.freq).length)) := by
  have hd : s.destInRange (serFreq s.freq).length = true := inRange_iff.2 h
  rw [execFreqStore_eq, if_pos hd]

/-- A FREQ_STORE that leaves ERR at 0 had room and stored the serialized table (R140). -/
theorem execFreqStore_ok {s t : State} (h : execFreqStore s = .next t) (he : t.err = none) :
    s.dstAddr + (serFreq s.freq).length ≤ s.memBytes ∧
      t = s.store (serFreq s.freq) (BitVec.ofNat 32 (serFreq s.freq).length) := by
  rw [execFreqStore_eq] at h
  split at h <;> cases h
  · exact ⟨inRange_iff.1 ‹_›, rfl⟩
  · cases he

/-! ## FREQ_CLEAR and FREQ_READ -/

/-- Settles O19: every entry of the table of FREQ_CLEAR is 0. -/
theorem freqClearEmptiesTheTable : Obligations.FreqClearEmptiesTheTable :=
  fun _ => ⟨_, rfl, entry_freqZero, rfl⟩

/-- Settles O26: RESULT is the entry, by the definition of FREQ_READ. -/
theorem freqReadGivesTheCount : Obligations.FreqReadGivesTheCount :=
  fun _ _ => rfl

/-! ## FREQ_COUNT -/

theorem allSymbols_nodup : allSymbols.Nodup :=
  allSymbols_pairwise.imp fun hlt heq => by simp [heq] at hlt

/-- Each byte of a buffer is counted once (R125). -/
theorem sum_countTable (data : List Byte) (hn : data.length < 2 ^ 32) :
    ((countTable data).toList.map BitVec.toNat).sum = data.length := by
  calc ((countTable data).toList.map BitVec.toNat).sum
      = (allSymbols.map fun x => data.count x).sum := by
        simp [toList_eq_map_entry, Function.comp_def, entry_countTable data hn]
    _ = ∑ x ∈ allSymbols.toFinset, data.count x := (List.sum_toFinset _ allSymbols_nodup).symm
    _ = data.length := by
        simpa using Multiset.sum_count_eq_card (m := (data : Multiset Byte))
          fun x _ => List.mem_toFinset.2 (mem_allSymbols x)

/-- The symbols present after counting are those that occur. -/
theorem length_present_countTable (data : List Byte) (hn : data.length < 2 ^ 32) :
    (present (countTable data)).length = data.toFinset.card := by
  have hset : ((present (countTable data)).map Prod.fst).toFinset = data.toFinset := by
    ext x
    simp [mem_present, entry_countTable data hn, List.count_pos_iff]
  rw [← hset, List.toFinset_card_of_nodup (present_nodup _), List.length_map]

/-- Settles O20: the counts of the source, their sum, and the number of symbols present. -/
theorem freqCountCountsTheBuffer : Obligations.FreqCountCountsTheBuffer := by
  intro s hr
  have hn : s.source.length < 2 ^ 32 := (source_length s).trans_lt s.len.isLt
  have hk : (present (countTable s.source)).length < 2 ^ 32 :=
    (present_length_le _).trans_lt (by decide)
  refine ⟨_, execFreqCount_completes hr, entry_countTable _ hn, ?_, ?_, rfl⟩
  · exact (sum_countTable _ hn).trans (source_length s)
  · rw [complete_result, BitVec.toNat_ofNat, Nat.mod_eq_of_lt hk, length_present_countTable _ hn]

/-! ## FREQ_LOAD -/

/-- Settles O21: the parser gives a table back from its serialized form, and accepts nothing else. -/
theorem freqLoadAcceptsExactlySerializedTables : Obligations.FreqLoadAcceptsExactlySerializedTables := by
  intro s hr
  refine ⟨fun f hf => ?_, fun hf => ?_⟩
  · exact execFreqLoad_of_parse_ok hr (hf ▸ parseFreq_serFreq f)
  · cases hp : parseFreq s.source with
    | ok f => exact absurd (parseFreq_ok hp) (hf f)
    | error c => exact ⟨_, c, execFreqLoad_of_parse_error hr hp, rfl, by simpa using parseFreq_error hp⟩

/-- One record: its count is checked before its symbol (R132, R263). -/
theorem parseRecords_record (v : Byte) (n : Word) (rest : List Byte) (prev : Int) (new : FreqTable) :
    parseRecords (record (v, n) ++ rest) prev new =
      if n = 0 then .error .fmtFreqZero
      else if (v.toNat : Int) ≤ prev then .error .fmtFreqOrder
      else parseRecords rest v.toNat (setEntry new v n) := by
  simp only [record, be32, List.cons_append, List.nil_append, parseRecords, ofBe32_be32]

/-- The `prev` of R132 after the records `L`: the symbol of the last one, or what it was before them. -/
def lastSymbol (prev : Int) (L : List (Byte × Word)) : Int := L.foldl (fun _ p => (p.1.toNat : Int)) prev

theorem parseRecords_ascending {L : List (Byte × Word)} {prev : Int} (h : Ascending prev L) (rest : List Byte)
    (new : FreqTable) : parseRecords (L.flatMap record ++ rest) prev new =
      parseRecords rest (lastSymbol prev L) (applyRecords new L) :=
  parseRecords_records L prev new h rest

/-- The last symbol of ascending records is the greatest of theirs. -/
theorem Ascending.le_lastSymbol {L : List (Byte × Word)} {prev : Int} (h : Ascending prev L) :
    prev ≤ lastSymbol prev L ∧ ∀ p ∈ L, (p.1.toNat : Int) ≤ lastSymbol prev L := by
  induction L generalizing prev with
  | nil => exact ⟨le_rfl, by simp⟩
  | cons q L ih =>
    obtain ⟨hq, -, hL⟩ := ascending_cons.1 h
    obtain ⟨hprev, hmem⟩ := ih hL
    exact ⟨hq.le.trans hprev, List.forall_mem_cons.2 ⟨hprev, hmem⟩⟩

/-- Settles O22: the parser goes past the good records and judges the next one. -/
theorem freqLoadFaultsAtTheFirstBadRecord : Obligations.FreqLoadFaultsAtTheFirstBadRecord := by
  intro s hr
  refine ⟨fun h5 => ?_, fun h5 good v n rest hord hnz hsrc => ?_⟩
  · exact ⟨_, execFreqLoad_of_parse_error hr (if_pos (by rwa [source_length])), rfl⟩
  · have hgood : Ascending (-1) good := ⟨fun p hp => ⟨by omega, hnz p hp⟩, hord⟩
    have hsrc : s.source = good.flatMap record ++ (record (v, n) ++ rest) :=
      hsrc.trans (List.append_assoc _ _ _)
    have hp : parseFreq s.source = parseRecords (record (v, n) ++ rest)
        (lastSymbol (-1) good) (applyRecords FreqTable.zero good) := by
      rw [parseFreq, if_neg (by rw [source_length]; omega), hsrc, parseRecords_ascending hgood]
    rw [parseRecords_record] at hp
    refine ⟨fun hn => ?_, fun hn ⟨p, hpg, hv⟩ => ?_⟩
    · exact ⟨_, execFreqLoad_of_parse_error hr (hp.trans (if_pos hn)), rfl⟩
    · have hlast := hgood.le_lastSymbol.2 p hpg
      rw [if_neg hn, if_pos (by omega)] at hp
      exact ⟨_, execFreqLoad_of_parse_error hr hp, rfl⟩

/-! ## The serialized form and FREQ_STORE -/

/-- The four bytes of a count as quotients (R14, R64). -/
theorem be32_eq_quotients (n : Word) : be32 n = [BitVec.ofNat 8 (n.toNat / 2 ^ 24),
    BitVec.ofNat 8 (n.toNat / 2 ^ 16), BitVec.ofNat 8 (n.toNat / 2 ^ 8), BitVec.ofNat 8 n.toNat] := by
  simp only [be32, BitVec.extractLsb', Nat.shiftRight_eq_div_pow, pow_zero, Nat.div_one]

/-- Settles O23: the records are those of the symbols present. -/
theorem serializedTableForm : Obligations.SerializedTableForm := by
  intro f
  refine ⟨present f, present_pairwise f, fun x c => ?_, ?_, serFreq_length f, present_length_le f⟩
  · simp [mem_present, Nat.pos_iff_ne_zero, BitVec.toNat_eq]
  · simp only [serFreq, be32_eq_quotients]

/-- Settles O24: the store writes the serialized table and no other byte. -/
theorem freqStoreWritesTheSerializedTable : Obligations.FreqStoreWritesTheSerializedTable := by
  intro s hr
  exact ⟨_, execFreqStore_completes hr, readBytes_writeBytes _ _ _,
    fun a ha => read_writeBytes_outside _ (by omega), toNat_ofNat_of_fits hr, rfl⟩

/-! ## The round trip -/

/-- FREQ_LOAD of what FREQ_STORE wrote gives the table back (R136). -/
theorem freqLoad_after_freqStore {s t u : State} (hst : execFreqStore s = .next t) (he : t.err = none)
    (hsrc : u.source = t.mem.readBytes s.dstAddr t.result.toNat) (hr : u.srcAddr + u.srcLen ≤ u.memBytes) :
    ∃ v, execFreqLoad u = .next v ∧ v.freq = s.freq ∧ v.err = u.err := by
  obtain ⟨hfit, rfl⟩ := execFreqStore_ok hst he
  rw [store_mem, store_result, toNat_ofNat_of_fits hfit, readBytes_writeBytes] at hsrc
  exact ⟨_, execFreqLoad_of_parse_ok hr (hsrc ▸ parseFreq_serFreq s.freq), rfl, rfl⟩

/-- FREQ_STORE of the table that FREQ_LOAD set writes the bytes that were loaded (R136). -/
theorem freqStore_after_freqLoad {u v w : State} (hl : execFreqLoad u = .next v) (he : v.err = none)
    (hf : w.freq = v.freq) (hr : w.dstAddr + u.srcLen ≤ w.memBytes) :
    ∃ x, execFreqStore w = .next x ∧ x.result = u.len ∧
      x.mem.readBytes w.dstAddr u.srcLen = u.source ∧ x.err = w.err := by
  have hser : serFreq w.freq = u.source := hf ▸ (parseFreq_ok (execFreqLoad_ok hl he)).symm
  have hlen : (serFreq w.freq).length = u.srcLen := hser ▸ source_length u
  refine ⟨_, execFreqStore_completes (hlen ▸ hr), ?_, ?_, rfl⟩
  · rw [store_result, hlen, State.srcLen, BitVec.ofNat_toNat, BitVec.setWidth_eq]
  · rw [store_mem, ← hlen, readBytes_writeBytes, hser]

/-- Settles O25: the two directions. -/
theorem tableRoundTrip : Obligations.TableRoundTrip :=
  ⟨fun _ _ _ _ hst he hsrc hr => freqLoad_after_freqStore hst he hsrc hr,
    fun _ _ _ _ hl he hf hr => freqStore_after_freqLoad hl he hf hr⟩

end Sys2Proof.Machine
end

section
/-!
PROOFS of the statements about the tree (41_tree_and_codes.md section 1). BUILD_TREE by the number of symbols
present, the pops and the keys of its merges, and that nothing but the frequency table decides the tree.
-/

namespace Sys2Proof.Machine

/-! ## The symbols present -/

theorem toNat_pos_iff {w : Word} : 0 < w.toNat ↔ w ≠ 0 :=
  Nat.pos_iff_ne_zero.trans (not_congr (BitVec.toNat_inj (y := 0)))

theorem length_present (f : FreqTable) :
    (present f).length = (allSymbols.filter fun x => entry f x ≠ 0).length := by
  simp [present_eq, toNat_pos_iff]

theorem present_eq_nil {f : FreqTable} (h : ∀ x, entry f x = 0) : present f = [] :=
  List.eq_nil_iff_forall_not_mem.2 fun p hp => by
    obtain ⟨he, hpos⟩ := mem_present.1 hp
    simp [he, h] at hpos

theorem present_eq_singleton {f : FreqTable} {x : Byte} (hx : entry f x ≠ 0)
    (h : ∀ y, y ≠ x → entry f y = 0) : present f = [(x, entry f x)] := by
  refine List.perm_singleton.1 ((List.perm_ext_iff_of_nodup (present_nodup f).of_map
    (List.nodup_singleton _)).2 fun p => ?_)
  rw [mem_present, List.mem_singleton]
  constructor
  · rintro ⟨he, hpos⟩
    have hp : p.1 = x := by_contra fun hne => by simp [he, h _ hne] at hpos
    exact Prod.ext hp (hp ▸ he)
  · rintro rfl
    exact ⟨rfl, toNat_pos_iff.2 hx⟩

/-- The counts of the symbols present sum to the sum of all counts. -/
theorem sum_leafPairs (f : FreqTable) :
    ((leafPairs f).map Prod.snd).sum = (f.toList.map BitVec.toNat).sum := by
  rw [leafPairs, present_eq, toList_eq_map_entry]
  generalize allSymbols = l
  induction l with
  | nil => rfl
  | cons x l ih =>
    by_cases hx : 0 < (entry f x).toNat
    · simpa [hx] using ih
    · simpa [hx, Nat.eq_zero_of_not_pos hx] using ih

/-! ## BUILD_TREE -/

/-- The state BUILD_TREE leaves, given its TREE_STATE and NODE_COUNT (R160). -/
theorem exec_buildTree {s : State} {ts : TreeState} {n : Nat} (hts : builtState s.freq = ts)
    (hn : (buildTree s.freq s.tree).nodeCount.val = n) :
    exec .buildTree s = .next { s with
      tree := buildTree s.freq s.tree, treeState := ts, codesValid := false, result := BitVec.ofNat 32 n,
      busy := false } := by
  subst hts hn
  rfl

theorem buildTree_empty {f : FreqTable} (old : Tree) (h : present f = []) :
    buildTree f old = { old with nodeCount := 0 } := by
  simp [buildTree, h]

/-- Settles O28: the empty tree, and the one leaf. -/
theorem buildTreeOfFewSymbols : Obligations.BuildTreeOfFewSymbols := by
  refine fun s => ⟨fun h0 => ?_, fun x hx h0 => ?_⟩
  · have hp := present_eq_nil h0
    have hts : builtState s.freq = .empty := by simp [builtState, hp]
    have hn : (buildTree s.freq s.tree).nodeCount.val = 0 := by rw [buildTree_empty _ hp]; rfl
    exact ⟨_, exec_buildTree hts hn, hn, rfl⟩
  · have hp := present_eq_singleton hx h0
    have hts : builtState s.freq = .single := by simp [builtState, hp]
    obtain ⟨hn, hroot, hleaf⟩ := buildTree_single s.freq s.tree _ hp
    refine ⟨_, exec_buildTree hts hn, hn, hroot, ?_, rfl⟩
    simpa [hroot, leafOf] using hleaf

/-- Settles O29: `buildTree_multi`, the number of symbols present being `k`. -/
theorem buildTreeOfManySymbols : Obligations.BuildTreeOfManySymbols := by
  rintro s k rfl hk
  rw [← length_present] at hk ⊢
  have hle := present_length_le s.freq
  obtain ⟨hn, hroot, -⟩ := buildTree_multi s.freq s.tree hk
  have hts : builtState s.freq = .multi := by
    rcases builtState_cases s.freq with ⟨hp, -⟩ | ⟨p, hp, -⟩ | ⟨-, hb⟩
    · simp [hp] at hk
    · simp [hp] at hk
    · exact hb
  refine ⟨_, exec_buildTree hts hn, hn, hroot, ?_, rfl⟩
  exact (BitVec.toNat_ofNat _ _).trans (Nat.mod_eq_of_lt (by omega))

/-- A tree of any size but 0 stands at ROOT over exactly the symbols present. -/
theorem buildTree_holds (f : FreqTable) (old : Tree) (hk : 1 ≤ (present f).length) :
    ∃ t, Holds (buildTree f old).nodes (buildTree f old).root t ∧ t.leaves.Perm (leafPairs f) := by
  rcases builtState_cases f with ⟨hp, -⟩ | ⟨p, hp, -⟩ | ⟨h2, -⟩
  · simp [hp] at hk
  · obtain ⟨-, -, hleaf⟩ := buildTree_single f old p hp
    refine ⟨.leaf p.1 p.2.toNat, ⟨_, hleaf, ?_⟩, by simp [HTree.leaves, leafPairs, hp]⟩
    exact BitVec.toNat_setWidth_of_le (by decide)
  · exact (buildTree_multi f old h2).2.2

/-- Settles O31: the weight of the tree at ROOT is the sum of its leaves' counts. -/
theorem rootWeightIsTheSumOfTheCounts : Obligations.RootWeightIsTheSumOfTheCounts := by
  intro f old hk
  obtain ⟨t, ht, hperm⟩ := buildTree_holds f old hk
  calc _ = t.weight := ht.weight
    _ = (t.leaves.map Prod.snd).sum := t.weight_eq_sum
    _ = ((leafPairs f).map Prod.snd).sum := (hperm.map _).sum_eq
    _ = _ := sum_leafPairs f

/-! ## The merges -/

/-- One pass of the loop with its two pops made (R160, R164). -/
theorem Build.mergeStep_of_pops {b : Build} {l r : NodeIndex} {q rest : List NodeIndex}
    (hl : popLeast b.nodes b.queue = some (l, q)) (hr : popLeast b.nodes q = some (r, rest)) :
    b.mergeStep = { nodes := b.nodes.set (Fin.ofNat maxNodes b.next) (mergeNode b.nodes l r),
                    queue := Fin.ofNat maxNodes b.next :: rest, next := b.next + 1 } := by
  simp [Build.mergeStep, hl, hr]

/-- Settles O32: the pop's laws, and the node a merge writes. -/
theorem popsTakeTheLeastKey : Obligations.PopsTakeTheLeastKey := by
  refine ⟨fun nodes q rest i h => ⟨popLeast_perm h, fun j hj => ?_⟩, fun b l r q rest hn hl hr => ?_⟩
  · have hle := popLeast_least h j hj
    rw [← Bool.not_eq_true, keyLt_iff] at hle
    omega
  · have h1 := (popLeast_perm hl).length_eq
    have h2 := (popLeast_perm hr).length_eq
    have hnode : b.mergeStep.nodes[b.next]? = some (mergeNode b.nodes l r) := by
      simp [Build.mergeStep_of_pops hl hr, Nat.mod_eq_of_lt hn, hn]
    refine ⟨_, _, hnode, ?_⟩
    rw [Build.mergeStep_of_pops hl hr, h1]
    simp [h2]

/-- The queued trees stay over the same leaves through any number of merges. -/
theorem Forest.mergeAll_any {k : Nat} {L : List (Byte × Nat)} (hk : k ≤ 256) (hL : (L.map Prod.snd).sum < 2 ^ 40)
    (n : Nat) {b : Build} (h : Forest k L b) : Forest k L (b.mergeAll n) := by
  induction n generalizing b with
  | zero => exact h
  | succ n ih =>
    rcases b.mergeStep_cases with ⟨-, hs⟩ | ⟨l, q, r, rest, -, -, hp, -⟩
    · rw [Build.mergeAll, hs]; exact ih h
    · exact ih (h.mergeStep hk hL (by simp [hp.length_eq])).1

/-- Trees over different leaves have different least symbols, which are the discriminators (R17, R162). -/
theorem Forest.disc_nodup {k : Nat} {L : List (Byte × Nat)} {b : Build} (h : Forest k L b)
    (hL : (L.map Prod.fst).Nodup) : (b.queue.map fun i => b.nodes[i].disc).Nodup := by
  obtain ⟨T, hT, hperm⟩ := h.trees
  have hsyms : (b.queue.flatMap fun i => (T i).leaves.map Prod.fst).Nodup := by
    rw [← List.map_flatMap]
    exact (hperm.map _).nodup_iff.2 hL
  refine List.pairwise_map.2 ((List.nodup_flatMap.1 hsyms).2.imp_of_mem fun {i j} hi hj hdis he => ?_)
  have hmem : ∀ m ∈ b.queue, b.nodes[m].disc ∈ (T m).leaves.map Prod.fst := fun m hm => by
    obtain ⟨p, hp, hps⟩ := List.mem_map.1 (T m).minSym_mem
    rw [← (hT m hm).1.disc] at hps
    exact List.mem_map.2 ⟨p, hp, BitVec.eq_of_toNat_eq hps⟩
  exact hdis (hmem i hi) (he ▸ hmem j hj)

/-- Settles O33: the queue is a forest over the symbols present, each once. -/
theorem queueKeysAreDistinct : Obligations.QueueKeysAreDistinct := fun f old n =>
  ((Forest.start f old).mergeAll_any (present_length_le f) (leafPairs_sum_lt f) n).disc_nodup (leafPairs_nodup f)

/-! ## The tree depends on the table alone -/

/-- A tree of any size but 0 is what `k − 1` merges leave: none for the one leaf. -/
theorem buildTree_eq_mergeAll {f : FreqTable} (old : Tree) (hk : 1 ≤ (present f).length) :
    buildTree f old =
      { nodes := ((Build.start f old.nodes).mergeAll ((present f).length - 1)).nodes
        nodeCount := Fin.ofNat _ ((Build.start f old.nodes).mergeAll ((present f).length - 1)).next
        root := ((Build.start f old.nodes).mergeAll ((present f).length - 1)).queue.headD 0 } := by
  unfold buildTree
  split <;> rename_i h
  · omega
  · simp only [h, Build.start]
    rfl
  · rw [h]
    rfl

/-- Settles O34: builds that start from any two arrays agree below `next`. -/
theorem treeDependsOnTheTableAlone : Obligations.TreeDependsOnTheTableAlone := by
  intro f old old'
  rcases Nat.eq_zero_or_pos (present f).length with h0 | hk
  · have hp := List.eq_nil_of_length_eq_zero h0
    simp [buildTree_empty _ hp, hp]
  · have ha := (Build.start_agree f old.nodes old'.nodes).mergeAll (Build.start_fits f old.nodes)
      ((present f).length - 1)
    rw [buildTree_eq_mergeAll old hk, buildTree_eq_mergeAll old' hk]
    exact ⟨congrArg (Fin.ofNat _) ha.next, fun _ => congrArg (List.headD · 0) ha.queue,
      fun i hi => ha.nodes i (hi.trans_le (Nat.mod_le _ _))⟩

end Sys2Proof.Machine
end

section
/-!
PROOFS of the statements about the codes (41_tree_and_codes.md sections 2 and 3). The code table of a current
tree of any size, the codes of a current MULTI tree as exactly its paths, and CODE_READ.
-/

namespace Sys2Proof.Machine

/-! ## Commands without their tree or codes -/

/-- Settles O35: each of the four commands ends in `raise .notReady`. -/
theorem commandsNeedTheirTreeOrCodes : Obligations.CommandsNeedTheirTreeOrCodes := by
  intro s i h
  suffices he : exec i s = .next (raise .notReady s) from ⟨_, he, rfl⟩
  rcases h with ⟨rfl | rfl, ht⟩ | ⟨rfl | ⟨x, rfl⟩, hv⟩
  · exact if_pos ht
  · exact if_pos ht
  · exact if_pos (by simp [hv])
  · exact if_pos (by simp [hv])

/-! ## Entries of the code table -/

@[simp] theorem CodeEntry.code_length (e : CodeEntry) : e.code.length = e.len.toNat := by
  simp [CodeEntry.code]

/-- The bits of a path's entry above LEN are 0 (R40). -/
theorem pathEntry_bits_lt {p : List Bool} (h : p.length ≤ 255) :
    (pathEntry p).bits.toNat < 2 ^ (pathEntry p).len.toNat := by
  rw [pathEntry_len h]
  exact (Nat.mod_le _ _).trans_lt (pathNumber_lt p)

theorem longestCode_eq (codes : CodeTable) : longestCode codes =
    ((codes.toList.filter (·.present)).map (·.len.toNat)).max?.getD 0 := by
  rw [longestCode, ← List.foldl_filter, ← List.foldl_map, List.foldl_max]
  simp

/-- No present symbol's code is longer, and one is as long unless all are empty (R172). -/
theorem longestCode_spec (codes : CodeTable) :
    (∀ x, (entry codes x).present = true → (entry codes x).len.toNat ≤ longestCode codes) ∧
    (longestCode codes = 0 ∨
      ∃ x, (entry codes x).present = true ∧ (entry codes x).len.toNat = longestCode codes) := by
  have hmem : ∀ n, n ∈ (codes.toList.filter (·.present)).map (·.len.toNat) ↔
      ∃ x, (entry codes x).present = true ∧ (entry codes x).len.toNat = n := fun n => by
    simp [toList_eq_map_entry, mem_allSymbols]
  rw [longestCode_eq]
  cases hmax : ((codes.toList.filter (·.present)).map (·.len.toNat)).max? with
  | none =>
    rw [List.max?_eq_none_iff] at hmax
    exact ⟨fun x hx => by simpa [hmax] using (hmem _).2 ⟨x, hx, rfl⟩, .inl rfl⟩
  | some m =>
    obtain ⟨hm, hle⟩ := List.max?_eq_some_iff.1 hmax
    exact ⟨fun x hx => hle _ ((hmem _).2 ⟨x, hx, rfl⟩), .inr ((hmem m).1 hm)⟩

/-! ## The code table of a current tree -/

/-- A tree over the symbols present gives their code table, whatever their number (R172, R176). -/
theorem codeTable_of_holds {f : FreqTable} {tr : Tree} {t : HTree} (h : Holds tr.nodes tr.root t)
    (hp : t.leaves.Perm (leafPairs f)) :
    codeTable (builtState f) tr = some (t.assign 0 0 CodeTable.absent) := by
  obtain ⟨hlen, -, -⟩ := leaves_facts hp
  have hk := present_length_le f
  have hsize := t.size_eq
  rcases builtState_cases f with ⟨h0, -⟩ | ⟨p, h1, hb⟩ | ⟨h2, hb⟩
  · have := t.leaves_pos
    simp [hlen, h0] at this
  · cases t with
    | leaf sym c =>
      obtain ⟨w, hleaf, -⟩ := h
      simp only [hb, codeTable, hleaf]
      rfl
    | node l r =>
      have hl := l.leaves_pos
      have hr := r.leaves_pos
      simp only [HTree.leaves, List.length_append, h1, List.length_singleton] at hlen
      omega
  · obtain ⟨fuel, hfuel⟩ : ∃ fuel, maxNodes = t.size + fuel := ⟨511 - t.size, by show 511 = _; omega⟩
    rw [hb, codeTable, hfuel, traverse_tree t h]
    cases fuel <;> rfl

/-- What a code table over the table `f` holds: the present symbols of `f`, each with a code shorter than their
number and no bit above LEN (R40, R170, R171). -/
structure CodesFit (f : FreqTable) (codes : CodeTable) : Prop where
  present_iff : ∀ x, (entry codes x).present = true ↔ entry f x ≠ 0
  absent : ∀ x, entry f x = 0 → entry codes x = .absent
  len_lt : ∀ x, entry f x ≠ 0 → (entry codes x).len.toNat < (present f).length
  bits_lt : ∀ x, (entry codes x).bits.toNat < 2 ^ (entry codes x).len.toNat

theorem CodesFit.of_empty {f : FreqTable} (h : present f = []) : CodesFit f CodeTable.absent := by
  have h0 : ∀ x, entry f x = 0 := fun x => by_contra fun hx => by
    have hmem : (x, entry f x) ∈ present f := mem_present.2 ⟨rfl, toNat_pos_iff.2 hx⟩
    simp [h] at hmem
  refine ⟨fun x => ?_, fun x _ => entry_codesAbsent x, fun x hx => absurd (h0 x) hx, fun x => ?_⟩
  · simp [h0, CodeEntry.absent]
  · simp [CodeEntry.absent]

/-- The entries of a tree's table are its paths', and absent for the symbols that are no leaf. -/
theorem CodesFit.of_tree {f : FreqTable} {t : HTree} (hp : t.leaves.Perm (leafPairs f)) :
    CodesFit f (t.assign 0 0 CodeTable.absent) := by
  obtain ⟨hlen, hnd, hleaf⟩ := leaves_facts hp
  have hk := present_length_le f
  have habs : ∀ x, entry f x = 0 → entry (t.assign 0 0 CodeTable.absent) x = .absent := fun x hx => by
    rw [entry_assign_absent t 0 0 _ x fun hm => toNat_pos_iff.1 ((hleaf x).1 hm) hx, entry_codesAbsent]
  have hpath : ∀ x, entry f x ≠ 0 → ∃ p, p.length < (present f).length ∧
      entry (t.assign 0 0 CodeTable.absent) x = pathEntry p := fun x hx => by
    have hm := (hleaf x).2 (toNat_pos_iff.2 hx)
    rw [← t.paths_fst] at hm
    obtain ⟨⟨x, p⟩, hxp, rfl⟩ := List.mem_map.1 hm
    exact ⟨p, hlen ▸ t.paths_length_lt hxp, by rw [entry_assign_path t 0 0 _ x p hnd hxp]; simp [pathEntry]⟩
  refine ⟨fun x => ?_, habs, fun x hx => ?_, fun x => ?_⟩
  · by_cases hx : entry f x = 0
    · simp [habs x hx, hx, CodeEntry.absent]
    · obtain ⟨p, -, he⟩ := hpath x hx
      exact iff_of_true (by rw [he]; rfl) hx
  · obtain ⟨p, hl, he⟩ := hpath x hx
    rwa [he, pathEntry_len (by omega)]
  · by_cases hx : entry f x = 0
    · simp [habs x hx, CodeEntry.absent]
    · obtain ⟨p, hl, he⟩ := hpath x hx
      rw [he]
      exact pathEntry_bits_lt (by omega)

/-- A current tree has a code table, and it is one over the current frequency table. -/
theorem State.Inv.codesFit {s : State} (h : s.Inv) (ht : s.treeState ≠ .invalid) :
    ∃ codes, codeTable s.treeState s.tree = some codes ∧ CodesFit s.freq codes := by
  obtain ⟨hts, old, htree⟩ := h.tree_current ht
  rcases Nat.eq_zero_or_pos (present s.freq).length with h0 | hk
  · have hp := List.eq_nil_of_length_eq_zero h0
    have hb : builtState s.freq = .empty := by simp [builtState, hp]
    exact ⟨_, by rw [hts, hb]; rfl, .of_empty hp⟩
  · obtain ⟨t, hh, hp⟩ := buildTree_holds s.freq old hk
    rw [← htree] at hh
    exact ⟨_, hts ▸ codeTable_of_holds hh hp, .of_tree hp⟩

theorem execGenCodes_eq {s : State} {codes : CodeTable} (ht : s.treeState ≠ .invalid)
    (hc : codeTable s.treeState s.tree = some codes) : execGenCodes s =
      .next ({ s with codes := codes, codesValid := true }.complete (BitVec.ofNat 32 (longestCode codes))) := by
  simp [execGenCodes, ht, hc]

/-- Settles O36: the code table of the current tree, and its longest code, which a LEN holds. -/
theorem genCodesDerivesTheCodeTable : Obligations.GenCodesDerivesTheCodeTable := by
  intro s h ht
  obtain ⟨codes, hc, hfit⟩ := h.codesFit ht
  obtain ⟨hle, hmax⟩ := longestCode_spec codes
  have hlt : longestCode codes < 256 := by
    rcases hmax with h0 | ⟨x, -, hx⟩
    · omega
    · exact hx ▸ (entry codes x).len.isLt
  have hres : (BitVec.ofNat 32 (longestCode codes)).toNat = longestCode codes :=
    (BitVec.toNat_ofNat _ _).trans (Nat.mod_eq_of_lt (by omega))
  refine ⟨_, execGenCodes_eq ht hc, hfit.present_iff, fun x hx => ?_, fun x => ?_, ?_, rfl⟩
  · simp [hfit.absent x hx, CodeEntry.absent]
  · by_cases hx : entry s.freq x = 0
    · simp [hfit.absent x hx, CodeEntry.absent]
    · exact (hle x ((hfit.present_iff x).2 hx)).trans_eq hres.symm
  · rcases hmax with h0 | ⟨x, hx, hlen⟩
    · exact .inl (by rw [complete_result, h0]; rfl)
    · exact .inr ⟨x, (hfit.present_iff x).1 hx, hlen.trans hres.symm⟩

/-- Settles O40: valid codes are the code table of the current tree. -/
theorem codeLengthsAreBounded : Obligations.CodeLengthsAreBounded := by
  intro s h hv x
  obtain ⟨codes, hc, hfit⟩ := h.codesFit (h.codes_need_tree hv)
  obtain rfl : codes = s.codes := Option.some.inj (hc.symm.trans (h.codes_current hv))
  exact ⟨fun hx => hfit.len_lt x ((hfit.present_iff x).1 hx), hfit.bits_lt x⟩

/-! ## The codes depend on the table alone -/

theorem Holds.congr {nodes nodes' : Vector Node maxNodes} {t : HTree} {i : NodeIndex} (h : Holds nodes i t)
    (hn : ∀ j ≤ i, nodes'[j] = nodes[j]) : Holds nodes' i t := by
  induction t generalizing i with
  | leaf s c =>
    obtain ⟨w, hi, hw⟩ := h
    exact ⟨w, (hn i le_rfl).trans hi, hw⟩
  | node l r ihl ihr =>
    obtain ⟨w, d, li, ri, hi, hw, hd, hl, hr, Hl, Hr⟩ := h
    exact ⟨w, d, li, ri, (hn i le_rfl).trans hi, hw, hd, hl, hr,
      ihl Hl fun j hj => hn j (hj.trans hl.le), ihr Hr fun j hj => hn j (hj.trans hr.le)⟩

theorem buildTree_root_lt {f : FreqTable} (old : Tree) (hk : 1 ≤ (present f).length) :
    (buildTree f old).root.val < (buildTree f old).nodeCount.val := by
  rcases builtState_cases f with ⟨hp, -⟩ | ⟨p, hp, -⟩ | ⟨h2, -⟩
  · simp [hp] at hk
  · obtain ⟨hn, hroot, -⟩ := buildTree_single f old p hp
    omega
  · obtain ⟨hn, hroot, -⟩ := buildTree_multi f old h2
    omega

/-- The two arrays hold the same tree at the same root (R177). -/
theorem codeTable_buildTree_congr (f : FreqTable) (old old' : Tree) :
    codeTable (builtState f) (buildTree f old) = codeTable (builtState f) (buildTree f old') := by
  rcases Nat.eq_zero_or_pos (present f).length with h0 | hk
  · have hb : builtState f = .empty := by simp [builtState, h0]
    rw [hb]
    rfl
  · obtain ⟨-, hroot, hnodes⟩ := treeDependsOnTheTableAlone f old old'
    obtain ⟨t, hh, hp⟩ := buildTree_holds f old hk
    have hlt := buildTree_root_lt old hk
    have hh' : Holds (buildTree f old').nodes (buildTree f old').root t :=
      hroot hk ▸ hh.congr fun j hj => (hnodes j (lt_of_le_of_lt hj hlt)).symm
    rw [codeTable_of_holds hh hp, codeTable_of_holds hh' hp]

/-- Settles O41: both code tables are those of trees of the same table. -/
theorem codeMapDependsOnTheTableAlone : Obligations.CodeMapDependsOnTheTableAlone := by
  intro s u hs hu hsv huv hf
  obtain ⟨hsts, old, hst⟩ := hs.tree_current (hs.codes_need_tree hsv)
  obtain ⟨huts, old', hut⟩ := hu.tree_current (hu.codes_need_tree huv)
  have hsc := hs.codes_current hsv
  have huc := hu.codes_current huv
  rw [hsts, hst, hf, codeTable_buildTree_congr _ _ old'] at hsc
  rw [huts, hut] at huc
  exact Option.some.inj (hsc.symm.trans huc)

/-! ## The codes of a MULTI tree -/

/-- The codes of the present symbols are exactly the paths of the tree (R173). -/
theorem State.Inv.mem_paths_iff {s : State} (h : s.Inv) (hm : s.treeState = .multi) (hv : s.codesValid = true) :
    ∃ l r, Holds s.tree.nodes s.tree.root (.node l r) ∧ (HTree.node l r).leaves.Perm (leafPairs s.freq) ∧
      ∀ x p, (x, p) ∈ (HTree.node l r).paths ↔
        (entry s.codes x).present = true ∧ (entry s.codes x).code = p := by
  obtain ⟨l, r, hh, hp, -, -, hentry, hpath, -⟩ := h.current_codes hm hv
  refine ⟨l, r, hh, hp, fun x p => ⟨fun hx => ?_, fun ⟨hx, hc⟩ => ?_⟩⟩
  · obtain ⟨he, hlen, -⟩ := hentry x p hx
    exact ⟨by rw [he]; rfl, by rw [he, pathEntry_code hlen]⟩
  · obtain ⟨q, hq⟩ := hpath x hx
    obtain ⟨he, hlen, -⟩ := hentry x q hq
    rwa [← hc, he, pathEntry_code hlen]

/-- Settles O37: the walk of a path, and of its proper beginnings. -/
theorem codesArePathsOfTheTree : Obligations.CodesArePathsOfTheTree := by
  intro s h hm hv x hx
  obtain ⟨l, r, hh, -, hpaths⟩ := h.mem_paths_iff hm hv
  have hmem := (hpaths x _).2 ⟨hx, rfl⟩
  have hne := HTree.paths_ne_nil hmem
  refine ⟨hne, ?_, fun p hp hpne => ?_⟩
  · simpa [walk] using walk_path s.tree.root _ hh hmem hne []
  · obtain ⟨q, hq⟩ := hp
    have hq0 : q ≠ [] := fun h0 => hpne (by simpa [h0] using hq)
    obtain ⟨cur, hwalk, -, -⟩ := walk_proper (root := s.tree.root) _ hh (hq ▸ hmem) hq0
    exact ⟨cur, hwalk⟩

theorem encodeBits_of_present {codes : CodeTable} {d : List Byte}
    (h : ∀ b ∈ d, (entry codes b).present = true) :
    encodeBits codes d = some (d.flatMap fun b => (entry codes b).code) := by
  induction d with
  | nil => rfl
  | cons b d ih =>
    obtain ⟨hb, hd⟩ := List.forall_mem_cons.1 h
    simp [encodeBits, hb, ih hd]

/-- Walking the joined codes of present symbols gives the symbols (R174). -/
theorem State.Inv.walk_codes {s : State} (h : s.Inv) (hm : s.treeState = .multi) (hv : s.codesValid = true)
    {d : List Byte} (hd : ∀ b ∈ d, (entry s.codes b).present = true) :
    walk s.tree.nodes s.tree.root s.tree.root (d.flatMap fun b => (entry s.codes b).code)
      = some (d, s.tree.root) := by
  obtain ⟨l, r, hh, hp, -⟩ := h.current_codes hm hv
  obtain ⟨hlen, hnd, -⟩ := leaves_facts hp
  exact walk_encodeBits hh (hlen.trans_le (present_length_le _)) hnd (hm ▸ h.codes_current hv) d _
    (encodeBits_of_present hd)

/-- Settles O38: no path begins another, and the walk recovers the symbols. -/
theorem codesArePrefixFree : Obligations.CodesArePrefixFree := by
  refine fun s h hm hv => ⟨fun x y hx hy hxy => ?_, fun d d' hd hd' he => ?_⟩
  · obtain ⟨l, r, -, -, hpaths⟩ := h.mem_paths_iff hm hv
    exact (HTree.paths_prefixFree _ ((hpaths x _).2 ⟨hx, rfl⟩) ((hpaths y _).2 ⟨hy, rfl⟩) hxy).1
  · have hw := h.walk_codes hm hv hd
    rw [he, h.walk_codes hm hv hd'] at hw
    exact (congrArg Prod.fst (Option.some.inj hw)).symm

/-- The paths of the tree, listed by symbol in ascending order (R173). -/
theorem paths_perm {codes : CodeTable} {t : HTree} (hnd : (t.leaves.map Prod.fst).Nodup)
    (h : ∀ x p, (x, p) ∈ t.paths ↔ (entry codes x).present = true ∧ (entry codes x).code = p) :
    t.paths.Perm ((allSymbols.filter fun x => (entry codes x).present).map fun x => (x, (entry codes x).code)) := by
  have hpaths : t.paths.Nodup := (t.paths_fst ▸ hnd).of_map
  have hsyms : ((allSymbols.filter fun x => (entry codes x).present).map
      fun x => (x, (entry codes x).code)).Nodup :=
    (allSymbols_nodup.filter _).map fun _ _ he => congrArg Prod.fst he
  refine (List.perm_ext_iff_of_nodup hpaths hsyms).2 fun ⟨x, p⟩ => (h x p).trans ?_
  simp [mem_allSymbols]

/-- Settles O39: the Kraft sum of the paths, and the one path that a long sequence begins with. -/
theorem codeLengthsMeetKraftEquality : Obligations.CodeLengthsMeetKraftEquality := by
  intro s h hm hv
  obtain ⟨l, r, hh, hp, hpaths⟩ := h.mem_paths_iff hm hv
  obtain ⟨hlen, hnd, -⟩ := leaves_facts hp
  have hk := present_length_le s.freq
  refine ⟨?_, fun bits hb => ?_⟩
  · have hkraft := HTree.paths_kraft (.node l r) 255 fun x p hx => by
      have := HTree.paths_length_lt _ hx
      omega
    rw [((paths_perm hnd hpaths).map _).sum_eq, List.map_map] at hkraft
    simpa [Function.comp_def] using hkraft
  · obtain ⟨x, p, hx, hxb⟩ := HTree.path_exists (.node l r) bits (by omega)
    obtain ⟨hxp, rfl⟩ := (hpaths x p).1 hx
    refine ⟨x, ⟨hxp, hxb⟩, fun y hy hyb => ?_⟩
    obtain ⟨free, -⟩ := codesArePrefixFree s h hm hv
    rcases List.prefix_or_prefix_of_prefix hxb hyb with hxy | hyx
    · exact (free x y hxp hy hxy).symm
    · exact free y x hy hxp hyx

/-! ## CODE_READ -/

/-- RESULT of CODE_READ: PRESENT above LEN (R178). -/
theorem toNat_presentLen (p : Bool) (n : BitVec 8) :
    ((BitVec.ofBool p ++ n).setWidth 32).toNat = (if p then 256 else 0) + n.toNat := by
  have hn := n.isLt
  rw [BitVec.toNat_setWidth, BitVec.toNat_append, ← Nat.shiftLeft_add_eq_or_of_lt hn, Nat.shiftLeft_eq]
  cases p <;> simp <;> omega

/-- Settles O42: the groups of the code, stored at DST. -/
theorem codeReadWritesTheCode : Obligations.CodeReadWritesTheCode := by
  intro s x hv hfit
  have hd : s.destInRange (groupsFor (entry s.codes x).len.toNat) = true := inRange_iff.2 hfit
  have hbits := packGroups_bits (groupsFor (entry s.codes x).len.toNat) (entry s.codes x).code
    (by rw [CodeEntry.code_length]; exact le_groupsFor _)
  have hread := readBytes_writeBytes s.mem s.dstAddr
    (packGroups (groupsFor (entry s.codes x).len.toNat) (entry s.codes x).code)
  rw [CodeEntry.code_length] at hbits
  rw [packGroups_length] at hread
  refine ⟨_, (execCodeRead_eq x hv).trans (by rw [if_pos hd]), ?_, fun a ha => ?_, ?_, rfl⟩
  · exact (congrArg (List.flatMap bits8) hread).trans hbits
  · refine read_writeBytes_outside _ ?_
    rw [packGroups_length]
    unfold groupsFor
    omega
  · exact toNat_presentLen _ _

end Sys2Proof.Machine
end

section
/-!
PROOFS of the statements about ENCODE and DECODE (42_encode_decode.md). The form of a payload and its meaningful
bits, the end that the two commands share, what each makes of its source, and that no command stops the machine.
-/

namespace Sys2Proof.Machine

/-! ## Payloads -/

/-- Settles O43: the groups of the bits, and the trailer. -/
theorem packForm : Obligations.PackForm := by
  intro bits
  refine ⟨packGroups (groupsFor bits.length) bits, trailer bits.length, rfl, packGroups_length _ _, ?_,
    trailer_toNat _⟩
  rw [packGroups_length]
  exact packGroups_bits _ _ (le_groupsFor _)

/-- Unpack by the bytes before the trailer and the trailer (R210, R217). -/
theorem unpack_concat (front : List Byte) (t : Byte) : unpack (front ++ [t]) =
    if t.toNat < 1 ∨ 8 < t.toNat then .error .fmtTrailer
    else if front = [] then (if t.toNat = 8 then .ok [] else .error .fmtTrailer)
    else .ok ((front.flatMap bits8).take (8 * (front.length - 1) + t.toNat)) := by
  simp [unpack]

/-- A payload with data bytes and a trailer that the packer writes (R211). -/
theorem unpack_concat_ok {front : List Byte} {t : Byte} (hf : front ≠ []) (h1 : 1 ≤ t.toNat) (h8 : t.toNat ≤ 8) :
    unpack (front ++ [t]) = .ok ((front.flatMap bits8).take (8 * (front.length - 1) + t.toNat)) := by
  rw [unpack_concat, if_neg (by omega), if_neg hf]

/-- A trailer that the packer does not write (R217). -/
theorem unpack_concat_error {front : List Byte} {t : Byte}
    (h : t.toNat = 0 ∨ 8 < t.toNat ∨ (front = [] ∧ t.toNat ≠ 8)) : unpack (front ++ [t]) = .error .fmtTrailer := by
  rw [unpack_concat]
  rcases h with h | h | ⟨hf, h8⟩
  · rw [if_pos (.inl (by omega))]
  · rw [if_pos (.inr h)]
  · rw [if_pos hf, if_neg h8, ite_self]

theorem flatMap_bits8_length (l : List Byte) : (l.flatMap bits8).length = 8 * l.length := by
  simp [List.length_flatMap, bits8_length, Nat.mul_comm]

/-- Settles O47: the equation of Unpack, and that it inverts Pack. -/
theorem unpackTakesTheMeaningfulBits : Obligations.UnpackTakesTheMeaningfulBits := by
  refine ⟨fun front t hf h1 h8 => ⟨_, unpack_concat_ok hf h1 h8, ?_, List.take_prefix _ _⟩, rfl, unpack_pack⟩
  have hlen := List.length_pos_iff.2 hf
  rw [List.length_take, flatMap_bits8_length]
  omega

/-- The first bits of a byte do not depend on the bits below them (R14). -/
theorem take_bits8_congr {b b' : Byte} {n : Nat} (h : ∀ i, 8 - n ≤ i → b.getLsbD i = b'.getLsbD i) :
    (bits8 b).take n = (bits8 b').take n := by
  have hbits : ∀ b : Byte, bits8 b = (List.range 8).map fun i => b.getLsbD (7 - i) := fun _ => rfl
  rw [hbits, hbits, ← List.map_take, ← List.map_take, List.take_range]
  refine List.map_congr_left fun i hi => h _ ?_
  have := List.mem_range.1 hi
  omega

/-- The meaningful bits do not depend on the padding (R218). -/
theorem unpack_padding (front : List Byte) {b b' t : Byte} (h1 : 1 ≤ t.toNat) (h8 : t.toNat ≤ 8)
    (h : ∀ i, 8 - t.toNat ≤ i → b.getLsbD i = b'.getLsbD i) :
    unpack (front ++ [b, t]) = unpack (front ++ [b', t]) := by
  have hbits : ∀ c : Byte, unpack (front ++ [c, t]) = .ok (front.flatMap bits8 ++ (bits8 c).take t.toNat) := by
    intro c
    have hsplit : front ++ [c, t] = (front ++ [c]) ++ [t] := by simp
    rw [hsplit, unpack_concat_ok (by simp) h1 h8]
    rw [List.flatMap_append, List.length_append, List.length_singleton, Nat.add_sub_cancel, ← flatMap_bits8_length,
      List.take_length_add_append, List.flatMap_singleton]
  rw [hbits, hbits, take_bits8_congr h]

/-! ## The end that ENCODE and DECODE share -/

/-- The end of ENCODE and DECODE past their source check, by the fault or the bytes they make of the source
(R200, R209, R266). -/
def State.answer (s : State) : Except ErrCode (List Byte) → State
  | .error c => raiseWindow c s
  | .ok out => s.storeOutput out.length fun _ => out

@[simp] theorem answer_error (s : State) (c : ErrCode) : s.answer (.error c) = raiseWindow c s := rfl

theorem overlaps_iff {a n d m : Nat} :
    overlaps a n d m = true ↔ 0 < n ∧ 0 < m ∧ a < d + m ∧ d < a + n := by
  simp [overlaps, and_assoc]

theorem overlaps_eq_false {a n d m : Nat} :
    overlaps a n d m = false ↔ n = 0 ∨ m = 0 ∨ d + m ≤ a ∨ a + n ≤ d := by
  rw [← Bool.not_eq_true, overlaps_iff]
  omega

theorem answer_memRange {s : State} {out : List Byte} (h : s.memBytes < s.dstAddr + out.length) :
    s.answer (.ok out) = raiseWindow .memRange s := by
  have hd : s.destInRange out.length = false := inRange_eq_false.2 h
  simp [State.answer, State.storeOutput, hd]

theorem answer_overlap {s : State} {out : List Byte} (hfit : s.dstAddr + out.length ≤ s.memBytes)
    (hlen : 0 < s.srcLen) (hout : 0 < out.length) (h1 : s.srcAddr < s.dstAddr + out.length)
    (h2 : s.dstAddr < s.srcAddr + s.srcLen) : s.answer (.ok out) = raiseWindow .overlap s := by
  have hd : s.destInRange out.length = true := inRange_iff.2 hfit
  have ho : overlaps s.srcAddr s.srcLen s.dstAddr out.length = true := overlaps_iff.2 ⟨hlen, hout, h1, h2⟩
  simp [State.answer, State.storeOutput, hd, ho]

theorem answer_stores {s : State} {out : List Byte} (hfit : s.dstAddr + out.length ≤ s.memBytes)
    (h : s.srcLen = 0 ∨ out.length = 0 ∨ s.dstAddr + out.length ≤ s.srcAddr ∨ s.srcAddr + s.srcLen ≤ s.dstAddr) :
    s.answer (.ok out) = s.store out (BitVec.ofNat 32 out.length) := by
  have hd : s.destInRange out.length = true := inRange_iff.2 hfit
  have ho : overlaps s.srcAddr s.srcLen s.dstAddr out.length = false := overlaps_eq_false.2 h
  simp [State.answer, State.storeOutput, hd, ho]

/-- What a stored output is: its bytes at DST, every other byte as it was, RESULT its length, nothing else
changed (R77). -/
theorem store_output {s : State} {out : List Byte} (hfit : s.dstAddr + out.length ≤ s.memBytes) {t : State}
    (ht : t = s.store out (BitVec.ofNat 32 out.length)) :
    t.mem.readBytes s.dstAddr out.length = out ∧
      (∀ a, a < s.dstAddr ∨ s.dstAddr + out.length ≤ a → t.mem.read a = s.mem.read a) ∧
      t.result.toNat = out.length ∧ t = { s with mem := t.mem, result := t.result, busy := false } := by
  subst ht
  exact ⟨readBytes_writeBytes _ _ _, fun a ha => read_writeBytes_outside _ (by omega),
    toNat_ofNat_of_fits hfit, rfl⟩

/-- An end without a fault stored an output that fits. -/
theorem answer_ok {s : State} {a : Except ErrCode (List Byte)} (he : (s.answer a).err = none) :
    ∃ out, a = .ok out ∧ s.dstAddr + out.length ≤ s.memBytes ∧
      s.answer a = s.store out (BitVec.ofNat 32 out.length) := by
  cases a with
  | error c => cases he
  | ok out =>
    rcases storeOutput_cases s out.length fun _ => out with ⟨-, h⟩ | ⟨-, -, h⟩ | ⟨hd, -, h⟩
    · rw [State.answer, h] at he
      cases he
    · rw [State.answer, h] at he
      cases he
    · exact ⟨out, rfl, inRange_iff.1 hd, h⟩

/-- Two ends `t` and `v` of a command with DST of `s` have the same ERR and, without a fault, the same RESULT
and output (R218). -/
def EndAlike (s t v : State) : Prop :=
  t.err = v.err ∧ (t.err = none → t.result = v.result ∧
    ∀ a, s.dstAddr ≤ a → a < s.dstAddr + t.result.toNat → t.mem.read a = v.mem.read a)

theorem EndAlike.of_fault {s t v : State} {c : ErrCode} (ht : t.err = some c) (hv : v.err = some c) :
    EndAlike s t v :=
  ⟨ht.trans hv.symm, fun h0 => nomatch ht.symm.trans h0⟩

/-- An output that fits reads back whatever memory held before it. -/
theorem EndAlike.store {s : State} {out : List Byte} (m : Memory) (hfit : s.dstAddr + out.length ≤ s.memBytes) :
    EndAlike s (s.store out (BitVec.ofNat 32 out.length))
      (({ s with mem := m } : State).store out (BitVec.ofNat 32 out.length)) := by
  refine ⟨rfl, fun _ => ⟨rfl, fun a h1 h2 => ?_⟩⟩
  rw [store_result, toNat_ofNat_of_fits hfit] at h2
  obtain ⟨i, rfl⟩ := Nat.exists_eq_add_of_le h1
  have hi : i < out.length := by omega
  exact (read_writeBytes_inside s.mem hi).trans (read_writeBytes_inside m hi).symm

/-- The checks do not read memory, so two states that differ in memory only end alike. -/
theorem EndAlike.answer (s : State) (m : Memory) (a : Except ErrCode (List Byte)) :
    EndAlike s (s.answer a) (({ s with mem := m } : State).answer a) := by
  cases a with
  | error c => exact .of_fault rfl rfl
  | ok out =>
    cases hd : s.destInRange out.length with
    | false =>
      have hbig := inRange_eq_false.1 hd
      rw [answer_memRange hbig, answer_memRange (s := { s with mem := m }) hbig]
      exact .of_fault rfl rfl
    | true =>
      have hfit := inRange_iff.1 hd
      cases ho : overlaps s.srcAddr s.srcLen s.dstAddr out.length with
      | true =>
        obtain ⟨hlen, hout, h1, h2⟩ := overlaps_iff.1 ho
        rw [answer_overlap hfit hlen hout h1 h2, answer_overlap (s := { s with mem := m }) hfit hlen hout h1 h2]
        exact .of_fault rfl rfl
      | false =>
        have hap := overlaps_eq_false.1 ho
        rw [answer_stores hfit hap, answer_stores (s := { s with mem := m }) hfit hap]
        exact .store m hfit

/-! ## ENCODE -/

/-- What ENCODE makes of its source: the payload, or ENC_UNKNOWN_SYMBOL (R200, R206). -/
def encoded (ts : TreeState) (codes : CodeTable) (data : List Byte) : Except ErrCode (List Byte) :=
  ((encodePayload ts codes data).map Except.ok).getD (.error .encUnknownSymbol)

theorem execEncode_answer {s : State} (hv : s.codesValid = true) (hr : s.srcAddr + s.srcLen ≤ s.memBytes) :
    execEncode s = .next (s.answer (encoded s.treeState s.codes s.source)) := by
  have hr' : s.sourceInRange = true := inRange_iff.2 hr
  cases hp : encodePayload s.treeState s.codes s.source <;>
    simp [execEncode, hv, hr', hp, encoded, State.answer]

theorem execEncode_memRange {s : State} (hv : s.codesValid = true) (hr : s.memBytes < s.srcAddr + s.srcLen) :
    execEncode s = .next (raise .memRange s) := by
  have hr' : s.sourceInRange = false := inRange_eq_false.2 hr
  simp [execEncode, hv, hr']

theorem execEncode_notReady {s : State} (hv : s.codesValid = false) :
    execEncode s = .next (raise .notReady s) := by
  simp [execEncode, hv]

theorem encodeBits_of_absent {codes : CodeTable} {d : List Byte}
    (h : ∃ b ∈ d, (entry codes b).present = false) : encodeBits codes d = none := by
  induction d with
  | nil => simp at h
  | cons b d ih =>
    cases hb : (entry codes b).present with
    | false => simp [encodeBits, hb]
    | true =>
      have hd : ∃ b ∈ d, (entry codes b).present = false := by simpa [hb] using h
      simp [encodeBits, ih hd]

/-- With a tree the payload packs the codes of the data (R200). -/
theorem encoded_of_present {ts : TreeState} {codes : CodeTable} {data : List Byte} (hts : ts ≠ .empty)
    (h : ∀ b ∈ data, (entry codes b).present = true) :
    encoded ts codes data = .ok (pack (data.flatMap fun b => (entry codes b).code)) := by
  simp [encoded, encodePayload, hts, encodeBits_of_present h]

theorem encoded_of_absent {ts : TreeState} {codes : CodeTable} {data : List Byte}
    (h : ∃ b ∈ data, (entry codes b).present = false) :
    encoded ts codes data = .error .encUnknownSymbol := by
  by_cases hts : ts = .empty
  · obtain ⟨b, hb, -⟩ := h
    simp [encoded, encodePayload, hts, List.length_pos_of_mem hb]
  · simp [encoded, encodePayload, hts, encodeBits_of_absent h]

theorem encoded_empty (codes : CodeTable) (data : List Byte) :
    encoded .empty codes data = if data = [] then .ok [] else .error .encUnknownSymbol := by
  cases data <;> simp [encoded, encodePayload]

/-- An ENCODE that leaves ERR at 0 had codes for all its data and stored their payload (R200). -/
theorem execEncode_ok {s t : State} (hts : s.treeState ≠ .empty) (h : execEncode s = .next t) (he : t.err = none) :
    s.codesValid = true ∧ (∀ b ∈ s.source, (entry s.codes b).present = true) ∧
      s.dstAddr + (pack (s.source.flatMap fun b => (entry s.codes b).code)).length ≤ s.memBytes ∧
      t = s.store (pack (s.source.flatMap fun b => (entry s.codes b).code))
        (BitVec.ofNat 32 (pack (s.source.flatMap fun b => (entry s.codes b).code)).length) := by
  cases hv : s.codesValid with
  | false =>
    rw [execEncode_notReady hv] at h
    cases h
    cases he
  | true =>
    by_cases hr : s.srcAddr + s.srcLen ≤ s.memBytes
    · rw [execEncode_answer hv hr] at h
      cases h
      obtain ⟨out, hout, hfit, hst⟩ := answer_ok he
      have hp : ∀ b ∈ s.source, (entry s.codes b).present = true := fun b hb => by
        by_contra hne
        rw [encoded_of_absent ⟨b, hb, by simpa using hne⟩] at hout
        cases hout
      obtain rfl := Except.ok.inj ((encoded_of_present hts hp).symm.trans hout)
      exact ⟨rfl, hp, hfit, hst⟩
    · rw [execEncode_memRange hv (by omega)] at h
      cases h
      cases he

/-- Settles O44: the payload is stored, since it fits apart from the source. -/
theorem encodeWritesThePayload : Obligations.EncodeWritesThePayload := by
  rintro s _ hv hts hr hp rfl hfit hap
  have h := execEncode_answer hv hr
  rw [encoded_of_present hts hp, answer_stores hfit (by tauto)] at h
  exact ⟨_, h, store_output hfit rfl⟩

/-! ## DECODE -/

/-- What DECODE makes of a payload with a tree: a format fault, or the bytes it stands for. -/
inductive Decodes (ts : TreeState) (tr : Tree) (p : List Byte) : Except ErrCode (List Byte) → Prop where
  /-- An EMPTY tree and the empty payload (R216). -/
  | nothing (hts : ts = .empty) (hp : p = []) : Decodes ts tr p (.ok [])
  /-- An EMPTY tree and a nonempty payload (R216). -/
  | noTree (hts : ts = .empty) (hp : p ≠ []) : Decodes ts tr p (.error .fmtNoTree)
  /-- No trailer, or a malformed one (R217). -/
  | malformed (hts : ts = .single ∨ ts = .multi) (c : ErrCode) (hu : unpack p = .error c) :
      Decodes ts tr p (.error c)
  /-- A SINGLE tree and some meaningful bit (R215). -/
  | offLeaf (hts : ts = .single) (bits : List Bool) (hu : unpack p = .ok bits) (hb : bits ≠ []) :
      Decodes ts tr p (.error .fmtOffLeaf)
  /-- A SINGLE tree and no meaningful bit (R215). -/
  | repeated (hts : ts = .single) (hu : unpack p = .ok []) (sym : Byte) (w : Weight) (d : Byte)
      (hn : tr.nodes[tr.root] = .leaf sym w d) : Decodes ts tr p (.ok (List.replicate w.toNat sym))
  /-- A MULTI tree and bits that end inside a code (R214). -/
  | midTraversal (hts : ts = .multi) (bits : List Bool) (hu : unpack p = .ok bits) (out : List Byte)
      (last : NodeIndex) (hw : walk tr.nodes tr.root tr.root bits = some (out, last)) (hl : last ≠ tr.root) :
      Decodes ts tr p (.error .fmtMidTraversal)
  /-- A MULTI tree and bits that spell symbols (R213). -/
  | walked (hts : ts = .multi) (bits : List Bool) (hu : unpack p = .ok bits) (out : List Byte)
      (hw : walk tr.nodes tr.root tr.root bits = some (out, tr.root)) : Decodes ts tr p (.ok out)

theorem execDecode_of_tree {s : State} (ht : s.treeState ≠ .invalid) (hr : s.srcAddr + s.srcLen ≤ s.memBytes) :
    execDecode s = decodePayload s.source s := by
  have hr' : s.sourceInRange = true := inRange_iff.2 hr
  simp [execDecode, ht, hr']

theorem execDecode_memRange {s : State} (ht : s.treeState ≠ .invalid) (hr : s.memBytes < s.srcAddr + s.srcLen) :
    execDecode s = .next (raise .memRange s) := by
  have hr' : s.sourceInRange = false := inRange_eq_false.2 hr
  simp [execDecode, ht, hr']

theorem Decodes.tree_valid {ts : TreeState} {tr : Tree} {p : List Byte} {a : Except ErrCode (List Byte)}
    (h : Decodes ts tr p a) : ts ≠ .invalid := by
  rintro rfl
  cases h with
  | malformed hts => rcases hts with hts | hts <;> cases hts
  | nothing hts | noTree hts | offLeaf hts | repeated hts | midTraversal hts | walked hts => cases hts

/-- DECODE with its source in memory ends by what it makes of the payload (R209). -/
theorem Decodes.exec {s : State} {a : Except ErrCode (List Byte)}
    (h : Decodes s.treeState s.tree s.source a) (hr : s.srcAddr + s.srcLen ≤ s.memBytes) :
    execDecode s = .next (s.answer a) := by
  rw [execDecode_of_tree h.tree_valid hr]
  cases h with
  | nothing hts hp => simp [decodePayload, hts, hp, State.answer]
  | noTree hts hp =>
    have hlen : s.source.length ≠ 0 := mt List.eq_nil_of_length_eq_zero hp
    simp only [decodePayload, if_pos hts, if_pos hlen, State.answer]
  | malformed hts c hu => rcases hts with hts | hts <;> simp [decodePayload, hts, hu, State.answer]
  | offLeaf hts bits hu hb => simp [decodePayload, hts, hu, decodeSingle, hb, State.answer]
  | repeated hts hu sym w d hn => simp [decodePayload, hts, hu, decodeSingle, hn, State.answer]
  | midTraversal hts bits hu out last hw hl =>
    simp [decodePayload, hts, hu, decodeMulti, hw, hl, State.answer]
  | walked hts bits hu out hw => simp [decodePayload, hts, hu, decodeMulti, hw, State.answer]

/-- A payload counts by its meaningful bits, and by whether it is empty. -/
theorem Decodes.congr {ts : TreeState} {tr : Tree} {p q : List Byte} {a : Except ErrCode (List Byte)}
    (h : Decodes ts tr p a) (hu : unpack p = unpack q) (hpq : p = [] ↔ q = []) : Decodes ts tr q a := by
  cases h with
  | nothing hts hp => exact .nothing hts (hpq.1 hp)
  | noTree hts hp => exact .noTree hts fun hq => hp (hpq.2 hq)
  | malformed hts c h => exact .malformed hts c (hu ▸ h)
  | offLeaf hts bits h hb => exact .offLeaf hts bits (hu ▸ h) hb
  | repeated hts h sym w d hn => exact .repeated hts (hu ▸ h) sym w d hn
  | midTraversal hts bits h out last hw hl => exact .midTraversal hts bits (hu ▸ h) out last hw hl
  | walked hts bits h out hw => exact .walked hts bits (hu ▸ h) out hw

theorem State.Inv.decodes_single {s : State} (h : s.Inv) (hts : s.treeState = .single) (p : List Byte) :
    ∃ a, Decodes s.treeState s.tree p a := by
  obtain ⟨x, -, hn⟩ := h.single hts
  match hu : unpack p with
  | .error c => exact ⟨_, .malformed (.inl hts) c hu⟩
  | .ok [] => exact ⟨_, .repeated hts hu _ _ _ hn⟩
  | .ok (b :: bits) => exact ⟨_, .offLeaf hts _ hu (List.cons_ne_nil b bits)⟩

theorem State.Inv.decodes_multi {s : State} (h : s.Inv) (hts : s.treeState = .multi) (p : List Byte) :
    ∃ a, Decodes s.treeState s.tree p a := by
  obtain ⟨l, r, hh, -⟩ := h.multi hts
  cases hu : unpack p with
  | error c => exact ⟨_, .malformed (.inr hts) c hu⟩
  | ok bits =>
    obtain ⟨out, last, hw⟩ := walk_isSome hh bits hh
    by_cases hl : last = s.tree.root
    · exact ⟨_, .walked hts bits hu out (hl ▸ hw)⟩
    · exact ⟨_, .midTraversal hts bits hu out last hw hl⟩

/-- With a current tree every payload is decoded, to bytes or to a format fault (R213, R330). -/
theorem State.Inv.decodes {s : State} (h : s.Inv) (ht : s.treeState ≠ .invalid) (p : List Byte) :
    ∃ a, Decodes s.treeState s.tree p a := by
  cases hts : s.treeState with
  | invalid => exact absurd hts ht
  | empty =>
    by_cases hp : p = []
    · exact ⟨_, .nothing rfl hp⟩
    · exact ⟨_, .noTree rfl hp⟩
  | single => exact hts ▸ h.decodes_single hts p
  | multi => exact hts ▸ h.decodes_multi hts p

/-! ## Malformed payloads and padding -/

/-- A payload that unpacks has at least its trailer (R217). -/
theorem srcLen_pos_of_unpack {s : State} {bits : List Bool} (hu : unpack s.source = .ok bits) : 0 < s.srcLen := by
  rw [← source_length, List.length_pos_iff]
  intro h0
  rw [h0] at hu
  cases hu

/-- Settles O48: the payload is malformed. -/
theorem decodeFaultsOnAMalformedTrailer : Obligations.DecodeFaultsOnAMalformedTrailer := by
  intro s hts hr
  refine ⟨fun h0 => ?_, fun front last hsrc hlast => ?_⟩
  · have hsrc : s.source = [] := List.eq_nil_of_length_eq_zero ((source_length s).trans h0)
    have hu : unpack s.source = .error .fmtTruncated := by rw [hsrc]; rfl
    exact ⟨_, (Decodes.malformed hts _ hu).exec hr, rfl⟩
  · have hu : unpack s.source = .error .fmtTrailer := by rw [hsrc, unpack_concat_error hlast]
    exact ⟨_, (Decodes.malformed hts _ hu).exec hr, rfl⟩

/-- Settles O52: the payloads unpack alike, and the two states end alike. -/
theorem decodeIgnoresThePadding : Obligations.DecodeIgnoresThePadding := by
  intro front b b' t h1 h8 hb
  have hu := unpack_padding front h1 h8 hb
  refine ⟨hu, fun s u h hs hmem hsu => ?_⟩
  have hts : u.treeState = s.treeState := by rw [hmem]
  have htree : u.tree = s.tree := by rw [hmem]
  have hrange : u.srcAddr + u.srcLen = s.srcAddr + s.srcLen ∧ u.memBytes = s.memBytes := by
    rw [hmem]; exact ⟨rfl, rfl⟩
  by_cases ht : s.treeState = .invalid
  · exact ⟨_, _, if_pos ht, if_pos (hts.trans ht), EndAlike.of_fault rfl rfl⟩
  · by_cases hr : s.srcAddr + s.srcLen ≤ s.memBytes
    · obtain ⟨a, ha⟩ := h.decodes ht s.source
      have hau : Decodes u.treeState u.tree u.source a := by
        rw [hts, htree]
        exact ha.congr (by rw [hs, hsu, hu]) (by simp [hs, hsu])
      have halike := EndAlike.answer s u.mem a
      rw [← hmem] at halike
      exact ⟨_, _, ha.exec hr, hau.exec (by omega), halike⟩
    · exact ⟨_, _, execDecode_memRange ht (by omega), execDecode_memRange (hts ▸ ht) (by omega),
        EndAlike.of_fault rfl rfl⟩

/-! ## The order of faults, and an EMPTY tree -/

/-- Settles O45: the source range, then what ENCODE makes of its source, then where that stands. -/
theorem encodeFaultsInOrder : Obligations.EncodeFaultsInOrder := by
  refine ⟨fun s i hi hr => ?_, fun s hv hr => ⟨fun habs => ?_, ?_⟩⟩
  · have he : exec i s = .next (raise .memRange s) := by
      rcases hi with ⟨rfl, hv⟩ | ⟨rfl, ht⟩
      · exact execEncode_memRange hv hr
      · exact execDecode_memRange ht hr
    exact ⟨_, he, rfl⟩
  · exact ⟨_, execEncode_answer hv hr, by rw [encoded_of_absent habs, answer_error, raiseWindow_err]⟩
  · rintro _ hts hp rfl
    refine ⟨fun hbig => ⟨_, execEncode_answer hv hr, ?_⟩, fun hfit h0 h1 h2 => ⟨_, execEncode_answer hv hr, ?_⟩⟩
    · rw [encoded_of_present hts hp, answer_memRange hbig, raiseWindow_err]
    · rw [encoded_of_present hts hp, answer_overlap hfit h0 (by simp [pack_length]) h1 h2, raiseWindow_err]

/-- What ENCODE and DECODE make of their source with an EMPTY tree (R205, R216). -/
theorem exec_empty {s : State} {i : Instr} (hts : s.treeState = .empty)
    (hi : (i = .encode ∧ s.codesValid = true) ∨ i = .decode) (hr : s.srcAddr + s.srcLen ≤ s.memBytes) :
    exec i s = .next (s.answer (if s.source = [] then .ok []
      else .error (if i = .encode then .encUnknownSymbol else .fmtNoTree))) := by
  rcases hi with ⟨rfl, hv⟩ | rfl
  · rw [if_pos rfl, ← encoded_empty s.codes, ← hts]
    exact execEncode_answer hv hr
  · by_cases hsrc : s.source = []
    · rw [if_pos hsrc]
      exact (Decodes.nothing hts hsrc).exec hr
    · rw [if_neg hsrc, if_neg (by simp)]
      exact (Decodes.noTree hts hsrc).exec hr

/-- Settles O46: the empty output ends as any output does, and some data faults. -/
theorem emptyTreeCodesOnlyEmptyData : Obligations.EmptyTreeCodesOnlyEmptyData := by
  intro s i hts hi hr
  have he := exec_empty hts hi hr
  have hsrc : s.source = [] ↔ s.srcLen = 0 := by rw [← source_length, List.length_eq_zero_iff]
  refine ⟨fun h0 hfit => ?_, fun h0 hbig => ?_, fun hpos => ?_⟩
  · rw [if_pos (hsrc.2 h0), answer_stores (out := []) hfit (.inl h0)] at he
    exact ⟨_, he, fun a => read_writeBytes_outside _ (by simp), rfl⟩
  · rw [if_pos (hsrc.2 h0), answer_memRange (out := []) hbig] at he
    exact ⟨_, he, rfl⟩
  · rw [if_neg (by rw [hsrc]; omega)] at he
    exact ⟨_, he, rfl⟩

/-! ## A SINGLE tree -/

/-- A current SINGLE tree: ROOT is the leaf of `x`, the one symbol present, and its count (R168). -/
theorem State.Inv.single_leaf {s : State} (h : s.Inv) (hts : s.treeState = .single) {x : Byte}
    (hx : entry s.freq x ≠ 0) : present s.freq = [(x, entry s.freq x)] ∧
      s.tree.nodes[s.tree.root] = .leaf x ((entry s.freq x).setWidth 40) x := by
  obtain ⟨p, hp, hn⟩ := h.single hts
  have hmem : (x, entry s.freq x) ∈ present s.freq := mem_present.2 ⟨rfl, toNat_pos_iff.2 hx⟩
  obtain rfl : (x, entry s.freq x) = p := by simpa [hp] using hmem
  exact ⟨hp, hn⟩

/-- The payload of the byte 8 stands for the symbol as often as its count (R215). -/
theorem State.InvAtIssue.decodes_repeated {s : State} (h : s.InvAtIssue) (hts : s.treeState = .single) {x : Byte}
    (hx : entry s.freq x ≠ 0) (hsrc : s.source = [0x08]) :
    Decodes s.treeState s.tree s.source (.ok (List.replicate (entry s.freq x).toNat x)) := by
  obtain ⟨-, hn⟩ := h.single_leaf hts hx
  have hd := Decodes.repeated (p := s.source) hts (by rw [hsrc]; rfl) _ _ _ hn
  rwa [BitVec.toNat_setWidth_of_le (by decide)] at hd

/-- Settles O49: the two payloads of a SINGLE tree that unpack. -/
theorem decodeWithASingleSymbol : Obligations.DecodeWithASingleSymbol := by
  intro s x h hts hx hr
  refine ⟨fun bits hu hb => ⟨_, (Decodes.offLeaf hts bits hu hb).exec hr, rfl⟩, fun hsrc => ?_⟩
  have he : exec .decode s = .next (s.answer (.ok (List.replicate (entry s.freq x).toNat x))) :=
    (h.decodes_repeated hts hx hsrc).exec hr
  have hlen : (List.replicate (entry s.freq x).toNat x).length = (entry s.freq x).toNat := List.length_replicate
  generalize hout : List.replicate (entry s.freq x).toNat x = out at he hlen
  have hsrcLen : 0 < s.srcLen := by simp [← source_length, hsrc]
  have hpos : 0 < out.length := hlen ▸ toNat_pos_iff.2 hx
  rw [← hlen]
  refine ⟨fun hbig => ⟨_, he, ?_⟩, fun hfit h1 h2 => ⟨_, he, ?_⟩, fun hfit hap => ?_⟩
  · rw [answer_memRange hbig, raiseWindow_err]
  · rw [answer_overlap hfit hsrcLen hpos h1 h2, raiseWindow_err]
  · obtain ⟨hbytes, hframe, hres, ht⟩ := store_output hfit (answer_stores hfit (.inr (.inr hap)))
    have hres : (s.answer (.ok out)).result = entry s.freq x := BitVec.eq_of_toNat_eq (hres.trans hlen)
    exact ⟨_, he, hbytes, hframe, hres ▸ ht⟩

/-- Valid codes of a current SINGLE tree: its symbol has the empty code (R176). -/
theorem State.InvAtIssue.single_code {s : State} (h : s.InvAtIssue) (hts : s.treeState = .single)
    (hv : s.codesValid = true) {x : Byte} (hx : entry s.freq x ≠ 0) :
    (entry s.codes x).present = true ∧ (entry s.codes x).code = [] := by
  obtain ⟨codes, hc, hfit⟩ := h.codesFit (h.codes_need_tree hv)
  obtain rfl : codes = s.codes := Option.some.inj (hc.symm.trans (h.codes_current hv))
  have hlen := hfit.len_lt x hx
  rw [(h.single_leaf hts hx).1, List.length_singleton] at hlen
  exact ⟨(hfit.present_iff x).2 hx, List.eq_nil_of_length_eq_zero (by rw [CodeEntry.code_length]; omega)⟩

/-- Settles O54: the codes of the data are empty, so that the payload is the trailer 8 (R207). -/
theorem encodeOfASingleSymbolCarriesNoCount : Obligations.EncodeOfASingleSymbolCarriesNoCount := by
  intro s x h hts hv hx hsrc hr hfit hap
  obtain ⟨hp, hc⟩ := h.single_code hts hv hx
  have hbits : (s.source.flatMap fun b => (entry s.codes b).code) = [] :=
    List.flatMap_eq_nil_iff.2 fun b hb => by rw [hsrc b hb, hc]
  obtain ⟨t, he, hbytes, hframe, hres, ht⟩ := encodeWritesThePayload s [0x08] hv (by simp [hts]) hr
    (fun b hb => by rw [hsrc b hb, hp]) (by rw [hbits]; rfl) hfit hap
  have hres : t.result = 1 := BitVec.eq_of_toNat_eq hres
  have hbyte : t.mem.read s.dstAddr = 0x08 := by simpa [Memory.readBytes] using hbytes
  exact ⟨t, he, hbyte, fun a ha => hframe a (by simp; omega), hres ▸ ht⟩

/-! ## A MULTI tree -/

/-- GEN_CODES with a current tree: valid codes of the same tree (R172). -/
theorem State.InvAtIssue.genCodes {s g : State} (h : s.InvAtIssue) (ht : s.treeState ≠ .invalid)
    (hg : exec .genCodes s = .next g) :
    g.Inv ∧ g.codesValid = true ∧ g.treeState = s.treeState ∧ g.tree = s.tree ∧ g.freq = s.freq := by
  obtain ⟨codes, hc⟩ := h.codeTable_isSome ht
  have hinv := (exec_effect hg).keeps_inv h
  obtain rfl := Host.Outcome.next.inj ((execGenCodes_eq ht hc).symm.trans hg)
  exact ⟨hinv, rfl, rfl, rfl, rfl⟩

/-- Walking the joined codes of present symbols emits them, and the walk goes on from the root (R213). -/
theorem State.Inv.walk_codes_append {s : State} (h : s.Inv) (hm : s.treeState = .multi) (hv : s.codesValid = true)
    {d : List Byte} (hd : ∀ b ∈ d, (entry s.codes b).present = true) {bits : List Bool} {out : List Byte}
    {last : NodeIndex} (hw : walk s.tree.nodes s.tree.root s.tree.root bits = some (out, last)) :
    walk s.tree.nodes s.tree.root s.tree.root ((d.flatMap fun b => (entry s.codes b).code) ++ bits)
      = some (d ++ out, last) := by
  obtain ⟨l, r, hh, -, hpaths⟩ := h.mem_paths_iff hm hv
  induction d with
  | nil => exact hw
  | cons b d ih =>
    obtain ⟨hb, hd⟩ := List.forall_mem_cons.1 hd
    have hmem := (hpaths b _).2 ⟨hb, rfl⟩
    rw [List.flatMap_cons, List.append_assoc, walk_path _ _ hh hmem (HTree.paths_ne_nil hmem), ih hd]
    rfl

/-- A proper nonempty beginning of a code ends below the root and emits nothing (R213). -/
theorem State.Inv.walk_code_beginning {s : State} (h : s.Inv) (hm : s.treeState = .multi)
    (hv : s.codesValid = true) {x : Byte} {part rest : List Bool} (hx : (entry s.codes x).present = true)
    (hc : (entry s.codes x).code = part ++ rest) (hp : part ≠ []) (hr : rest ≠ []) :
    ∃ cur, walk s.tree.nodes s.tree.root s.tree.root part = some ([], cur) ∧ cur ≠ s.tree.root := by
  obtain ⟨l, r, hh, -, hpaths⟩ := h.mem_paths_iff hm hv
  obtain ⟨cur, hw, -, hlt⟩ := walk_proper (root := s.tree.root) _ hh ((hpaths x _).2 ⟨hx, hc⟩) hr
  exact ⟨cur, hw, fun he => absurd (hlt hp) (by rw [he]; exact lt_irrefl _)⟩

/-- Settles O50: the walk goes past the codes of the data and stops inside the next one. -/
theorem decodeFaultsMidTraversal : Obligations.DecodeFaultsMidTraversal := by
  intro s g data x part rest h hm hg hr hd hc hp hrest hu
  obtain ⟨hinv, hv, hts, htree, -⟩ := h.genCodes (by simp [hm]) hg
  obtain ⟨hx, hd⟩ := List.forall_mem_cons.1 hd
  obtain ⟨cur, hw, hne⟩ := hinv.walk_code_beginning (hts.trans hm) hv hx hc hp hrest
  have hw := hinv.walk_codes_append (hts.trans hm) hv hd hw
  rw [htree] at hw hne
  exact ⟨_, (Decodes.midTraversal hm _ hu _ cur hw hne).exec hr, rfl⟩

/-- Settles O51: the walk emits the data, which then end the command as any output does. -/
theorem decodeWritesTheSymbolsOfTheCodes : Obligations.DecodeWritesTheSymbolsOfTheCodes := by
  intro s g data h hm hg hr hd hu
  obtain ⟨hinv, hv, hts, htree, -⟩ := h.genCodes (by simp [hm]) hg
  have hw := hinv.walk_codes (hts.trans hm) hv hd
  rw [htree] at hw
  have he : execDecode s = .next (s.answer (.ok data)) := (Decodes.walked hm _ hu data hw).exec hr
  refine ⟨fun hbig => ⟨_, he, ?_⟩, fun hfit hne h1 h2 => ⟨_, he, ?_⟩, fun hfit hap => ⟨_, he, ?_⟩⟩
  · rw [answer_memRange hbig, raiseWindow_err]
  · rw [answer_overlap hfit (srcLen_pos_of_unpack hu) (List.length_pos_iff.2 hne) h1 h2, raiseWindow_err]
  · exact store_output hfit (answer_stores hfit (.inr (hap.imp_left fun h0 => by simp [h0])))

/-- Settles O53: GEN_CODES in the second state gives the codes the payload was made of (R177), so that the
payload spells the data there. -/
theorem encodeThenDecodeGivesTheDataBack : Obligations.EncodeThenDecodeGivesTheDataBack := by
  intro s t u h hm _ hst he hu hut hf hsrc hr hfit hap
  obtain ⟨hv, hp, hsfit, ht⟩ := execEncode_ok (by simp [hm]) hst he
  obtain ⟨hbytes, -, hres, -⟩ := store_output hsfit ht
  rw [hres, hbytes] at hsrc
  have hum : u.treeState = .multi := by
    rw [(hu.tree_current hut).1, ← hm, (h.tree_current (by simp [hm])).1, hf]
  obtain ⟨codes, hc⟩ := hu.codeTable_isSome hut
  obtain ⟨hg, hgv, -, -, hgf⟩ := hu.genCodes hut (execGenCodes_eq hut hc)
  have hcodes : s.codes = codes := codeMapDependsOnTheTableAlone _ _ h hg hv hgv (hf.symm.trans hgf.symm)
  obtain ⟨-, -, hdec⟩ := decodeWritesTheSymbolsOfTheCodes u _ s.source hu hum (execGenCodes_eq hut hc) hr
    (hcodes ▸ hp) (by rw [hsrc, unpack_pack, hcodes]; rfl)
  rw [source_length] at hdec
  obtain ⟨v, hex, hdata, -, hlen, hfr⟩ := hdec hfit (hap.imp_left fun h0 => List.eq_nil_of_length_eq_zero
    ((source_length s).trans h0))
  exact ⟨v, hex, BitVec.eq_of_toNat_eq hlen, hdata, by rw [hfr]⟩

/-! ## No command stops the machine -/

/-- From a state with a current tree every command answers a next state (R173, R213, R330). -/
theorem State.InvAtIssue.exec_next {s : State} (h : s.InvAtIssue) (i : Instr) : ∃ t, exec i s = .next t := by
  cases i with
  | freqClear | freqRead | buildTree | clearStatus => exact ⟨_, rfl⟩
  | freqStore => exact ⟨_, execFreqStore_eq s⟩
  | freqCount =>
    by_cases hr : s.srcAddr + s.srcLen ≤ s.memBytes
    · exact ⟨_, execFreqCount_completes hr⟩
    · exact ⟨_, execFreqCount_memRange (inRange_eq_false.2 (by omega))⟩
  | freqLoad =>
    by_cases hr : s.srcAddr + s.srcLen ≤ s.memBytes
    · cases hp : parseFreq s.source with
      | error c => exact ⟨_, execFreqLoad_of_parse_error hr hp⟩
      | ok f => exact ⟨_, execFreqLoad_of_parse_ok hr hp⟩
    · exact ⟨_, execFreqLoad_memRange (inRange_eq_false.2 (by omega))⟩
  | genCodes =>
    by_cases ht : s.treeState = .invalid
    · exact ⟨_, if_pos ht⟩
    · obtain ⟨codes, hc⟩ := h.codeTable_isSome ht
      exact ⟨_, execGenCodes_eq ht hc⟩
  | codeRead x =>
    cases hv : s.codesValid with
    | false => exact ⟨_, if_pos (by simp [hv])⟩
    | true => exact ⟨_, execCodeRead_eq x hv⟩
  | encode =>
    cases hv : s.codesValid with
    | false => exact ⟨_, execEncode_notReady hv⟩
    | true =>
      by_cases hr : s.srcAddr + s.srcLen ≤ s.memBytes
      · exact ⟨_, execEncode_answer hv hr⟩
      · exact ⟨_, execEncode_memRange hv (by omega)⟩
  | decode =>
    by_cases ht : s.treeState = .invalid
    · exact ⟨_, if_pos ht⟩
    · by_cases hr : s.srcAddr + s.srcLen ≤ s.memBytes
      · obtain ⟨a, ha⟩ := h.decodes ht s.source
        exact ⟨_, ha.exec hr⟩
      · exact ⟨_, execDecode_memRange ht (by omega)⟩

theorem State.Inv.issue_next {s : State} (h : s.Inv) (w : Word) : ∃ t, issue w s = .next t := by
  by_cases he : s.err = none
  · cases hd : decodeWord s.params w with
    | error e => exact ⟨_, issue_illegal he hd⟩
    | ok i =>
      obtain ⟨t, ht⟩ := (h.running s.program).exec_next i
      exact ⟨t, (issue_decoded he hd).trans ht⟩
  · by_cases hw : w = 0x30
    · exact ⟨_, by rw [issue, if_pos he, if_pos hw]; rfl⟩
    · exact ⟨_, issue_ignored he hw⟩

/-- Settles O60: a command answers a next state, and so does every other action but an access outside memory. -/
theorem invariantMachineNeverStops : Obligations.InvariantMachineNeverStops := by
  intro s h
  cases hp : s.program with
  | nil => exact .inl ⟨_, step_nil hp⟩
  | cons a rest =>
    rw [step_cons hp]
    cases a with
    | memw a bytes =>
      by_cases hm : hostMayAccess { s with program := rest } a bytes.length = true
      · exact .inl ⟨_, if_pos hm⟩
      · exact .inr ⟨if_neg hm, a, .inl ⟨bytes, rfl⟩⟩
    | memr a n =>
      by_cases hm : hostMayAccess { s with program := rest } a n = true
      · exact .inl ⟨_, if_pos hm⟩
      · exact .inr ⟨if_neg hm, a, .inr ⟨n, rfl⟩⟩
    | wr r v =>
      by_cases hr : r = .cmd
      · subst hr
        have h' : ({ s with program := rest } : State).Inv := { h with }
        exact .inl (h'.issue_next v)
      · exact .inl ⟨_, act_wr hr v _⟩
    | rd r => exact .inl ⟨_, rfl⟩
    | reset => exact .inl ⟨_, rfl⟩

end Sys2Proof.Machine
end

section
/-!
PROOF of the statement about CLEAR_STATUS (43_control.md).
-/

namespace Sys2Proof.Machine

theorem exec_clearStatus (s : State) : exec .clearStatus s = .next s.acknowledge := rfl

/-- R28, R95: the word of CLEAR_STATUS runs it with a fault pending and with none. -/
theorem issue_clearStatus (s : State) : issue 0x30 s = .next s.acknowledge := by
  by_cases he : s.err = none
  · have hd : decodeWord s.params 0x30 = .ok .clearStatus := (opcodeMapIsExact _ _ .clearStatus).2 rfl
    exact issue_decoded he hd
  · rw [issue, if_pos he, if_pos rfl]
    rfl

/-- R94: no other word of CLEAR_STATUS's opcode is a command. -/
theorem decodeWord_error_of_opField_clearStatus {p : Params} {w : Word} (hop : opField w = 0x30)
    (hw : w ≠ 0x30) : ∃ e, decodeWord p w = .error e := by
  cases hd : decodeWord p w with
  | error e => exact ⟨e, rfl⟩
  | ok i =>
    have hmap : instrOfOpcode 0x30 (symField w) = some i := hop ▸ (decodeWord_ok hd).1
    cases hmap
    exact absurd ((opcodeMapIsExact p w .clearStatus).1 hd) hw

/-- Settles O7: the word of CLEAR_STATUS acknowledges; every other word of its opcode is illegal. -/
theorem clearStatusAcknowledges : Obligations.ClearStatusAcknowledges := by
  refine ⟨exec_clearStatus, fun s rest hp => (step_cons hp).trans (issue_clearStatus _),
    fun s w rest hp he hop hw => ?_⟩
  obtain ⟨e, hd⟩ := decodeWord_error_of_opField_clearStatus (p := s.params) hop hw
  obtain ⟨t, hs, ht⟩ := illegalWordFaultsAndChangesNothingElse s w rest e hp he hd
  exact ⟨t, hs, congrArg State.err ht⟩

end Sys2Proof.Machine
end

section
/-!
PROOFS of the statements about faults (60_exceptions.md). A fault is one of three effects of a command: with
nothing more changed, with a new FREQ (FREQ_LOAD), or with the destination window unspecified (ENCODE, DECODE).
Which of the three a command takes is told by its code and by the source check.
-/

namespace Sys2Proof.Machine

/-- Settles O8: a step takes the host's next action, and there is none. -/
theorem idleBlockHoldsItsState : Obligations.IdleBlockHoldsItsState := fun _ => step_nil

/-! ## The fault codes and what every fault does -/

/-- The ways to take a fault: every other effect leaves ERR at 0. -/
theorem Effect.fault_cases {i : Instr} {s t : State} {c : ErrCode} (e : Effect i s t) (hs : s.err = none)
    (hc : t.err = some c) : c ∈ faultsOf i ∧
      (t = raise c s ∨ (i = .freqLoad ∧ t = raiseTable c s.invalidate) ∨
        ((i = .encode ∨ i = .decode) ∧ s.sourceInRange = true ∧ t = raiseWindow c s)) := by
  cases e with
  | faulted _ hm =>
    cases hc
    exact ⟨hm, .inl rfl⟩
  | tableFaulted _ hi hm =>
    cases hc
    exact ⟨hm, .inr (.inl ⟨hi, rfl⟩)⟩
  | windowFaulted _ hi hm hr =>
    cases hc
    exact ⟨hm, .inr (.inr ⟨hi, hr, rfl⟩)⟩
  | loaded | answered | stored | built | generated => exact nomatch hs.symm.trans hc
  | acknowledged => exact nomatch hc

/-- Settles O14: the codes by their definition, the commands by their lists of faults. -/
theorem faultCodesAndWhoRaisesThem : Obligations.FaultCodesAndWhoRaisesThem := by
  refine ⟨rfl, fun i s t c hs h hc => ?_⟩
  have hm : c ∈ faultsOf i := ((exec_effect h).fault_cases hs hc).1
  clear hc
  revert c
  cases i with
  | freqClear | freqRead | buildTree | clearStatus => exact fun c hm => nomatch hm
  | freqCount | freqLoad | freqStore | genCodes | codeRead | encode | decode => simp [faultsOf]

/-- Settles O15: the three ways to take a fault share `raise`. -/
theorem faultEntry : Obligations.FaultEntry := by
  intro i s t c hs h hc
  obtain ⟨-, rfl | ⟨-, rfl⟩ | ⟨-, -, rfl⟩⟩ := (exec_effect h).fault_cases hs hc <;> rfl

/-! ## What a fault leaves in the tables -/

/-- FREQ_LOAD faults MEM_RANGE before it parses, and with the code of the parser after it (R132). -/
theorem execFreqLoad_fault {s t : State} {c : ErrCode} (hs : s.err = none) (h : execFreqLoad s = .next t)
    (hc : t.err = some c) :
    (c = .memRange ∧ t = raise .memRange s) ∨ (c ≠ .memRange ∧ t = raiseTable c s.invalidate) := by
  cases hr : s.sourceInRange with
  | false =>
    rw [execFreqLoad_memRange hr] at h
    cases h
    exact .inl ⟨(Option.some.inj hc).symm, rfl⟩
  | true =>
    cases hp : parseFreq s.source with
    | ok f =>
      rw [execFreqLoad_of_parse_ok (inRange_iff.1 hr) hp] at h
      cases h
      exact nomatch hs.symm.trans hc
    | error c' =>
      rw [execFreqLoad_of_parse_error (inRange_iff.1 hr) hp] at h
      cases h
      cases hc
      refine .inr ⟨?_, rfl⟩
      rcases parseFreq_error hp with rfl | rfl | rfl <;> decide

/-- Settles O16: the two faults of FREQ_LOAD, and those of the other commands. -/
theorem faultLeavesTheTables : Obligations.FaultLeavesTheTables := by
  intro i s t c hs h hc
  by_cases hi : i = .freqLoad
  · subst hi
    rcases execFreqLoad_fault hs h hc with ⟨rfl, rfl⟩ | ⟨hne, rfl⟩
    · simp
    · simp [hne, State.invalidate]
  · obtain ⟨-, rfl | ⟨hl, -⟩ | ⟨-, -, rfl⟩⟩ := (exec_effect h).fault_cases hs hc
    · simp [hi]
    · exact absurd hl hi
    · simp [hi]

/-! ## What a fault leaves in buffer memory -/

/-- Past the source check ENCODE and DECODE fault by opening the destination window (R266). -/
theorem answer_fault {s : State} {a : Except ErrCode (List Byte)} {c : ErrCode} (hs : s.err = none)
    (ha : a ≠ .error .notReady) (hc : (s.answer a).err = some c) :
    c ≠ .notReady ∧ s.answer a = raiseWindow c s := by
  cases a with
  | error c' =>
    cases hc
    exact ⟨fun h => ha (congrArg _ h), rfl⟩
  | ok out =>
    rcases storeOutput_cases s out.length fun _ => out with ⟨-, h⟩ | ⟨-, -, h⟩ | ⟨-, -, h⟩ <;>
      rw [State.answer, h] at hc ⊢
    · cases hc
      exact ⟨by decide, rfl⟩
    · cases hc
      exact ⟨by decide, rfl⟩
    · exact nomatch hs.symm.trans hc

theorem encoded_ne_notReady (ts : TreeState) (codes : CodeTable) (data : List Byte) :
    encoded ts codes data ≠ .error .notReady := by
  cases h : encodePayload ts codes data <;> simp [encoded, h]

/-- Every end of DECODE past its source check is the answer for bytes or for a format fault (R209). -/
theorem decodePayload_answer {p : List Byte} {s t : State} (h : decodePayload p s = .next t) :
    ∃ a, a ≠ .error .notReady ∧ t = s.answer a := by
  unfold decodePayload at h
  split at h
  · split at h
    · exact ⟨.error .fmtNoTree, by simp, (Host.Outcome.next.inj h).symm⟩
    · exact ⟨.ok [], by simp, (Host.Outcome.next.inj h).symm⟩
  · split at h
    · rename_i c hu
      refine ⟨.error c, ?_, (Host.Outcome.next.inj h).symm⟩
      rcases unpack_error hu with rfl | rfl <;> simp
    · split at h
      · unfold decodeSingle at h
        split at h
        · exact ⟨.error .fmtOffLeaf, by simp, (Host.Outcome.next.inj h).symm⟩
        · split at h
          · rename_i sym w _ _
            exact ⟨.ok (List.replicate w.toNat sym), by simp,
              by simpa [State.answer] using (Host.Outcome.next.inj h).symm⟩
          · cases h
      · unfold decodeMulti at h
        split at h
        · cases h
        · split at h
          · exact ⟨.error .fmtMidTraversal, by simp, (Host.Outcome.next.inj h).symm⟩
          · exact ⟨.ok _, by simp, (Host.Outcome.next.inj h).symm⟩

/-- With the source in range ENCODE and DECODE either lack their codes or tree, or answer for their source. -/
theorem exec_of_sourceInRange {i : Instr} {s t : State} (hi : i = .encode ∨ i = .decode)
    (hr : s.sourceInRange = true) (h : exec i s = .next t) :
    t = raise .notReady s ∨ ∃ a, a ≠ .error .notReady ∧ t = s.answer a := by
  rcases hi with rfl | rfl
  · change execEncode s = _ at h
    cases hv : s.codesValid with
    | false => exact .inl (Host.Outcome.next.inj (h.symm.trans (execEncode_notReady hv)))
    | true =>
      exact .inr ⟨_, encoded_ne_notReady _ _ _,
        Host.Outcome.next.inj (h.symm.trans (execEncode_answer hv (inRange_iff.1 hr)))⟩
  · change execDecode s = _ at h
    by_cases ht : s.treeState = .invalid
    · exact .inl (Host.Outcome.next.inj (h.symm.trans (if_pos ht)))
    · exact .inr (decodePayload_answer ((execDecode_of_tree ht (inRange_iff.1 hr)).symm.trans h))

/-- The bytes a window fault leaves: those below DST, and from DST up the draw it took (R266, U2). -/
theorem raiseWindow_read (c : ErrCode) (s : State) :
    (∀ a, a < s.dstAddr → (raiseWindow c s).mem.read a = s.mem.read a) ∧
      ∀ a, s.dstAddr ≤ a → a < s.memBytes → (raiseWindow c s).mem.read a = Config.freeByte s.draws a :=
  ⟨fun _ ha => read_scramble_below _ _ _ ha, fun _ hd hm => read_scramble_window _ _ hd hm⟩

/-- Settles O17: past the source check ENCODE and DECODE fault NOT_READY or by their window. -/
theorem faultLeavesMemory : Obligations.FaultLeavesMemory := by
  intro i s t c hs h hc
  by_cases hi : (i = .encode ∨ i = .decode) ∧ s.sourceInRange = true
  · obtain ⟨hi, hr⟩ := hi
    rcases exec_of_sourceInRange hi hr h with rfl | ⟨a, ha, rfl⟩
    · cases hc
      rw [if_neg fun hif => hif.2.1 rfl, raise_mem]
    · obtain ⟨hne, hw⟩ := answer_fault hs ha hc
      rw [if_pos ⟨hi, hne, hr⟩, hw]
      exact raiseWindow_read c s
  · rw [if_neg fun hif => hi ⟨hif.1, hif.2.2⟩]
    obtain ⟨-, rfl | ⟨-, rfl⟩ | ⟨hw, hr, -⟩⟩ := (exec_effect h).fault_cases hs hc
    · rfl
    · rfl
    · exact absurd ⟨hw, hr⟩ hi

end Sys2Proof.Machine
end

section
/-!
PROOF of the statement about the commands right after reset (70_reset_and_hazards.md): the values that reset
leaves meet the conditions of NOT_READY and of the EMPTY tree.
-/

namespace Sys2Proof.Machine

/-- What O35 says of ERR for the two commands that need a tree. -/
theorem exec_notReady_of_invalid {i : Instr} {s : State} (hi : i = .genCodes ∨ i = .decode)
    (ht : s.treeState = .invalid) : ∃ u, exec i s = .next u ∧ u.err = some .notReady := by
  obtain ⟨u, he, hu⟩ := commandsNeedTheirTreeOrCodes s i (.inl ⟨hi, ht⟩)
  exact ⟨u, he, by rw [hu]⟩

/-- What O28 says of the empty table, field by field (R167): BUILD_TREE raises no fault. -/
theorem exec_buildTree_of_no_counts {s : State} (hf : ∀ x, entry s.freq x = 0) :
    ∃ u, exec .buildTree s = .next u ∧ u.treeState = .empty ∧ u.result = 0 ∧ u.err = s.err := by
  obtain ⟨u, he, -, hu⟩ := (buildTreeOfFewSymbols s).1 hf
  exact ⟨u, he, by rw [hu], by rw [hu], by rw [hu]⟩

/-- Settles O13, from what reset leaves (O12), what needs a tree (O35) and the tree of the empty table (O28). -/
theorem afterResetATreeMustBeBuilt : Obligations.AfterResetATreeMustBeBuilt := by
  intro s rest hp
  obtain ⟨t, hstep, -, -, -, -, -, -, -, herr, htree, -, -, -, hfreq, -⟩ := resetSetsEveryStatedValue s rest hp
  obtain ⟨u, hu, hempty, hresult, huerr⟩ := exec_buildTree_of_no_counts hfreq
  exact ⟨t, hstep, hfreq, htree, exec_notReady_of_invalid (.inr rfl) htree,
    exec_notReady_of_invalid (.inl rfl) htree, u, hu, hempty, hresult, huerr.trans herr⟩

end Sys2Proof.Machine
end
